-- ==== Sys2Proof/Config.lean ====
section
/-! DEFINITION. Config.lean: the implementation parameters of a BVCORE block (00_scope.md R5 to R10).
`N` and `S` are fixed when a block is built; `W` and `first` are computed from them. -/

namespace Sys2Proof

/-- The parameters of one block, with the bounds that must hold before it exists (R5, R6, R203):
`N` is the logical width in bits, `S` the width of a word. A pair that breaks a bound is no `Config`. -/
structure Config where
  N : Nat
  S : Nat
  N_pos : 1 ≤ N
  N_le : N ≤ 65535
  S_pos : 1 ≤ S
deriving DecidableEq, Repr

/-- R203: "a configuration that breaks them is refused, not given a meaning". -/
def Config.build (N S : Nat) : Option Config :=
  if h : 1 ≤ N ∧ N ≤ 65535 ∧ 1 ≤ S then some ⟨N, S, h.1, h.2.1, h.2.2⟩ else none

/-- R7: `W = ceil(N / S)`, the number of words of one bit vector. -/
def Config.W (c : Config) : Nat := (c.N + c.S - 1) / c.S

/-- R8: `first = (N mod S)` if that is not zero, else `S`: the meaningful bits of word 0. -/
def Config.first (c : Config) : Nat := if c.N % c.S = 0 then c.S else c.N % c.S

/-- R7: "`W >= 1` because `N > 0`". The operations below need it to index a word. -/
theorem Config.W_pos (c : Config) : 0 < c.W := by
  have := c.N_pos
  exact Nat.div_pos (by omega) c.S_pos

/-- The configuration of `State.reset`: N = 20, S = 8, so W = 3 and first = 4, the block most vectors of
95_test_vectors.md use. DESIGN CHOICE (log entry 2), unsafe: the spec leaves N and S to the builder, so a
claim about this one block says nothing of the others; the statements quantify over every `Config`. -/
def Config.reference : Config := ⟨20, 8, by decide, by decide, by decide⟩

end Sys2Proof
end

