-- ==== Sys2Proof/Syntax.lean ====
section
/-! DEFINITION. Syntax.lean: register names and the ten commands (30_encoding.md R65). -/

namespace Sys2Proof

/-- R20, R41: the four register numbers, `v0` to `v3`; every value of a 2-bit field is a legal register. -/
abbrev Reg := Fin 4

/-- The ten commands, one constructor per row of the opcode table (R65), with the operands the command word
carries. The data-in value of LDI and LDV is on its own port (R63) and is no part of the word. The operand
`pos` is "an unsigned 16-bit number ... used as it stands" (R62). -/
inductive Instr where
  /-- zero-value construction (R90) -/
  | clr (rd : Reg)
  /-- single-word construction (R91) -/
  | ldi (rd : Reg)
  /-- multi-word construction (R92) -/
  | ldv (rd : Reg)
  /-- whole-vector left shift (R100) -/
  | shl (rd rs1 : Reg) (pos : BitVec 16)
  /-- word-wise AND (R120) -/
  | and (rd rs1 rs2 : Reg)
  /-- decrement in place (R125) -/
  | dec (rd : Reg)
  /-- population count of the logical bits (R140) -/
  | popc (rs1 : Reg)
  /-- read one bit (R152) -/
  | test (rs1 : Reg) (pos : BitVec 16)
  /-- write one bit to 1 (R153) -/
  | set (rd : Reg) (pos : BitVec 16)
  /-- write one bit to 0 (R154) -/
  | unset (rd : Reg) (pos : BitVec 16)
deriving DecidableEq, Repr

end Sys2Proof
end

