-- ==== Sys2Proof/WellFormed.lean ====
section
/-! DEFINITION. WellFormed.lean: which commands exist in a given block. The operand types already hold every
legal register number (R41) and every 16-bit `pos` (R62), so the one check left is that of LDV (R69). -/

namespace Sys2Proof

/-- R69: "The construction that takes exactly `W` arguments is only valid when `W > 1`." Every other command
exists in every block. A position `pos >= N` is not ill-formed: it decodes and faults when executed (R151). -/
def Instr.wellFormed (c : Config) : Instr → Bool
  | .clr _ => true
  | .ldi _ => true
  | .ldv _ => decide (1 < c.W)
  | .shl _ _ _ => true
  | .and _ _ _ => true
  | .dec _ => true
  | .popc _ => true
  | .test _ _ => true
  | .set _ _ => true
  | .unset _ _ => true

end Sys2Proof
end

