-- ==== Sys2Proof/Decode.lean ====
section
/-! DEFINITION. Decode.lean: the command word (30_encoding.md R61), its decoder (R66 to R70), its encoder
(R66, R72) and the pseudo-commands (R73). -/

namespace Sys2Proof

/-- R61: bits 31:28, the opcode. -/
def opField (w : BitVec 32) : BitVec 4 := w.extractLsb' 28 4
/-- R61: bits 27:26, the destination register, or the register read and written in place. -/
def rdField (w : BitVec 32) : BitVec 2 := w.extractLsb' 26 2
/-- R61: bits 25:24, the first source register. -/
def rs1Field (w : BitVec 32) : BitVec 2 := w.extractLsb' 24 2
/-- R61: bits 23:22, the second source register. -/
def rs2Field (w : BitVec 32) : BitVec 2 := w.extractLsb' 22 2
/-- R61: bits 21:16, must be 0. -/
def zeroField (w : BitVec 32) : BitVec 6 := w.extractLsb' 16 6
/-- R61: bits 15:0, bit position or shift amount, used as it stands (R62). -/
def posField (w : BitVec 32) : BitVec 16 := w.extractLsb' 0 16

/-- R41: a 2-bit field names a register; every value is legal. -/
def regOfBits (b : BitVec 2) : Reg := b.toFin
/-- The 2-bit field that names a register. -/
def bitsOfReg (r : Reg) : BitVec 2 := BitVec.ofFin r

/-- The mnemonics of the opcode table (R65). -/
inductive Mnemonic where
  | clr | ldi | ldv | shl | and | dec | popc | test | set | unset
deriving DecidableEq, Repr

/-- One row of the match and mask table (R66). -/
structure OpcodeRow where
  mnemonic : Mnemonic
  pattern : BitVec 32
  mask : BitVec 32
deriving DecidableEq, Repr

/-- R66: "a word `c` is the command when `(c & mask) = match`". -/
def OpcodeRow.holds (r : OpcodeRow) (w : BitVec 32) : Bool := w &&& r.mask == r.pattern

/-- R66: the ten rows. -/
def opcodeRows : List OpcodeRow :=
  [ ⟨.clr,   0x10000000#32, 0xF3FFFFFF#32⟩,
    ⟨.ldi,   0x20000000#32, 0xF3FFFFFF#32⟩,
    ⟨.ldv,   0x30000000#32, 0xF3FFFFFF#32⟩,
    ⟨.shl,   0x40000000#32, 0xF0FF0000#32⟩,
    ⟨.and,   0x50000000#32, 0xF03FFFFF#32⟩,
    ⟨.dec,   0x60000000#32, 0xF3FFFFFF#32⟩,
    ⟨.popc,  0x70000000#32, 0xFCFFFFFF#32⟩,
    ⟨.test,  0x80000000#32, 0xFCFF0000#32⟩,
    ⟨.set,   0x90000000#32, 0xF3FF0000#32⟩,
    ⟨.unset, 0xA0000000#32, 0xF3FF0000#32⟩ ]

/-- R67: "return m with rd = c[27:26], rs1 = c[25:24], rs2 = c[23:22], pos = c[15:0]". -/
def instrOfRow (m : Mnemonic) (w : BitVec 32) : Instr :=
  match m with
  | .clr => .clr (regOfBits (rdField w))
  | .ldi => .ldi (regOfBits (rdField w))
  | .ldv => .ldv (regOfBits (rdField w))
  | .shl => .shl (regOfBits (rdField w)) (regOfBits (rs1Field w)) (posField w)
  | .and => .and (regOfBits (rdField w)) (regOfBits (rs1Field w)) (regOfBits (rs2Field w))
  | .dec => .dec (regOfBits (rdField w))
  | .popc => .popc (regOfBits (rs1Field w))
  | .test => .test (regOfBits (rs1Field w)) (posField w)
  | .set => .set (regOfBits (rdField w)) (posField w)
  | .unset => .unset (regOfBits (rdField w)) (posField w)

/-- Why a word spells no command (R68, R69). The spec has ONE answer, Illegal, and the machine treats the three
alike (R172); the reasons only name the clause. DESIGN CHOICE (log entry 10), safe. -/
inductive IllegalReason where
  /-- `op` is 0x0 or 0xB to 0xF (R68, R70) -/
  | reservedOpcode
  /-- a defined opcode with a 1 in a field that must be zero (R68) -/
  | mustBeZero
  /-- LDV in a block with `W = 1` (R69) -/
  | ldvInOneWordBlock
deriving DecidableEq, Repr

/-- The answer of the decoder (R67): a command, or Illegal. -/
inductive Decoded where
  | instr (i : Instr)
  | illegal (why : IllegalReason)
deriving DecidableEq, Repr

/-- R65, R68: the opcodes 0x1 to 0xA are defined. -/
def definedOpcode (op : BitVec 4) : Bool := decide (1 ≤ op.toNat ∧ op.toNat ≤ 10)

/-- R67: decoding, total on 32-bit words. It reads no state and not `din`; of the block it uses only whether
`W = 1`. -/
def decode (c : Config) (w : BitVec 32) : Decoded :=
  match opcodeRows.find? (fun r => r.holds w) with
  | none => .illegal (if definedOpcode (opField w) then .mustBeZero else .reservedOpcode)
  | some r =>
    if r.mnemonic = .ldv ∧ c.W = 1 then .illegal .ldvInOneWordBlock
    else .instr (instrOfRow r.mnemonic w)

/-- R61: "`cmd = op ++ rd ++ rs1 ++ rs2 ++ zero ++ pos` with widths 4, 2, 2, 2, 6, 16". -/
def commandWord (op : BitVec 4) (rd rs1 rs2 : BitVec 2) (zero : BitVec 6) (pos : BitVec 16) : BitVec 32 :=
  op ++ rd ++ rs1 ++ rs2 ++ zero ++ pos

/-- R65, R66: the word of a command, every field it does not use 0. -/
def encode : Instr → BitVec 32
  | .clr rd => commandWord 0x1 (bitsOfReg rd) 0 0 0 0
  | .ldi rd => commandWord 0x2 (bitsOfReg rd) 0 0 0 0
  | .ldv rd => commandWord 0x3 (bitsOfReg rd) 0 0 0 0
  | .shl rd rs1 pos => commandWord 0x4 (bitsOfReg rd) (bitsOfReg rs1) 0 0 pos
  | .and rd rs1 rs2 => commandWord 0x5 (bitsOfReg rd) (bitsOfReg rs1) (bitsOfReg rs2) 0 0
  | .dec rd => commandWord 0x6 (bitsOfReg rd) 0 0 0 0
  | .popc rs1 => commandWord 0x7 0 (bitsOfReg rs1) 0 0 0
  | .test rs1 pos => commandWord 0x8 0 (bitsOfReg rs1) 0 0 pos
  | .set rd pos => commandWord 0x9 (bitsOfReg rd) 0 0 0 pos
  | .unset rd pos => commandWord 0xA (bitsOfReg rd) 0 0 0 pos

/-- R73: "`MOV vd, vs` is `SHL vd, vs, 0`". -/
def pseudoMov (vd vs : Reg) : Instr := .shl vd vs 0
/-- R73: "`NOP` is `SHL v0, v0, 0`". -/
def pseudoNop : Instr := .shl 0 0 0
/-- R73: "`CLRB vd, pos` is another spelling of `UNSET vd, pos`". -/
def pseudoClrb (vd : Reg) (pos : BitVec 16) : Instr := .unset vd pos
/-- R73: the mutating form `SHL vd, pos` is `SHL vd, vd, pos`. -/
def pseudoShlInPlace (vd : Reg) (pos : BitVec 16) : Instr := .shl vd vd pos
/-- R73: the mutating form `AND vd, vt` is `AND vd, vd, vt`. -/
def pseudoAndInPlace (vd vt : Reg) : Instr := .and vd vd vt

/-- The 32-bit command word whose low `nbits` bits are those of `w` and whose other bits are 0. A command is ONE
32-bit number on the port, bit 0 least significant (R61, R71); it is not stored in bytes, so there is no byte
order to apply. DEDUCED (log entry 13), safe. -/
def tableWord (nbits w : Nat) : BitVec 32 := BitVec.ofNat 32 (w % 2 ^ nbits)

/-- What the decoder of the reference block (log entry 2) reads from a word of the opcode table. -/
def decodeTableWord (nbits w : Nat) : Option Instr :=
  match decode Config.reference (tableWord nbits w) with
  | .instr i => some i
  | .illegal _ => none

end Sys2Proof
end

