-- ==== Sys2Proof/Word.lean ====
section
/-! DEFINITION. Word.lean: the S-bit word and the W-word bit vector (00_scope.md R6, 10_state.md R20). -/

namespace Sys2Proof

/-- R6: "A word is an unsigned integer in `[0, 2^S - 1]`; every word operation truncates to `S` bits." -/
abbrev Word (c : Config) := BitVec c.S

/-- R20, R21: one register's content, `W` words, index 0 the MOST significant. Padding bits (R22) are the bits
`first` and above of word 0: real storage like any other bit. -/
abbrev Vec (c : Config) := Vector (Word c) c.W

end Sys2Proof
end

