-- ==== Sys2Proof/Machine/State.lean ====
section
/-! DEFINITION. Machine/State.lean: everything the block holds (10_state.md R20 to R34), its ports (30_encoding.md
R60) and the configuration it was built with. Plain data. There is no memory, program counter, mode or arithmetic
flag to hold (R26, R27, R31, R32, R40, R181). -/

namespace Sys2Proof.Machine

/-- R60, R64: one response, `rsp = (fault, cause[2:0], data[15:0])`. -/
structure Response where
  fault : Bool
  cause : BitVec 3
  data : BitVec 16
deriving DecidableEq, Repr

/-- What the host can do to the block (R180): issue a command word together with its data-in value (R60), or
assert `rst` between two commands (R200). -/
inductive HostInput (c : Config) where
  | command (word : BitVec 32) (data : BitVec (c.W * c.S))
  | rst
deriving DecidableEq, Repr

/-- The block of a configuration. `regs`, `fstat` and `fcmd` are the whole architectural state (R20, R28, R29,
R32); the other four fields are its ports, which the spec calls inputs and outputs of a step and which stand here
because a step is a function of the state alone. -/
structure Block (c : Config) where
  /-- the bit-vector registers `v0` to `v3` (R20) -/
  regs : Vector (Vec c) 4
  /-- FSTAT: `faulted` is bit 0, `cause` bits 3:1 (R28) -/
  fstat : BitVec 4
  /-- FCMD: the word of the command that took the first fault, 0 before (R29) -/
  fcmd : BitVec 32
  /-- the command word at the command port (R60). DESIGN CHOICE (log entry 4), safe -/
  cmd : BitVec 32
  /-- the value at the data-in port (R60, R63). DESIGN CHOICE (log entry 4), safe -/
  din : BitVec (c.W * c.S)
  /-- the inputs the host has still to give, the next one first (R3, R49). DESIGN CHOICE (log entry 3), safe -/
  queue : List (HostInput c)
  /-- the responses given, in command order (R60, R212). DESIGN CHOICE (log entry 5), safe -/
  rsps : List Response
deriving DecidableEq, Repr

/-- The whole state: the configuration, which no step changes (R5, R6), and the block built with it.
DESIGN CHOICE (log entry 1), safe. -/
structure State where
  cfg : Config
  block : Block cfg
deriving DecidableEq, Repr

/-- Why a step could stop with a fault. It has NO constructor: the two faults of the spec (R170) are latched in
FSTAT and FCMD and the block goes on answering (R174, R176), which is a next state. DEDUCED (log entry 12), safe:
nothing raises it. -/
inductive Fault where
deriving DecidableEq, Repr

/-- Why an instruction could have no meaning. -/
inductive Refusal where
  /-- The arm of `exec` for an instruction that has no meaning yet. Raised by no arm of this model. Safe. -/
  | notModelled (mnemonic : String)
deriving DecidableEq, Repr

/-- R90, R33: the vector whose every word is 0. -/
def zeroVec (c : Config) : Vec c := Vector.replicate c.W 0

/-- R33, R200: the block of configuration `c` right after reset. Registers, FSTAT and FCMD are the spec's values;
the empty lists (log entries 3, 5) and the 0 of the port latches (log entry 4, unsafe) are DESIGN CHOICE. -/
def Block.reset (c : Config) : Block c :=
  { regs := Vector.replicate 4 (zeroVec c)
    fstat := 0
    fcmd := 0
    cmd := 0
    din := 0
    queue := []
    rsps := [] }

/-- A machine of configuration `c` right after reset, for any `c`. -/
def State.resetFor (c : Config) : State := ⟨c, Block.reset c⟩

/-- The reset state of the reference block. DESIGN CHOICE (log entry 2), unsafe: N = 20 and S = 8 are the model's. -/
def State.reset : State := State.resetFor Config.reference

end Sys2Proof.Machine
end

