-- ==== Sys2Proof/Machine/Flags.lean ====
section
/-! DEFINITION. Machine/Flags.lean: the fields of FSTAT, the cause codes and the status pins (10_state.md R28, R29;
60_exceptions.md R171). There are no arithmetic flags and no condition codes (R27): no command computes one. -/

namespace Sys2Proof.Machine

/-- The causes a command can raise (R170, R171). -/
inductive Cause where
  /-- "the command word spells no command for this block" (R172) -/
  | illegalCmd
  /-- "bit position out of range" (R173) -/
  | posRange
deriving DecidableEq, Repr

/-- R171: the code of a cause; 0 is "no fault", 3 to 7 are never produced. -/
def causeCode : Cause → BitVec 3
  | .illegalCmd => 1
  | .posRange => 2

/-- R28: FSTAT from its two fields, `faulted` at bit 0 and `cause` at bits 3:1. -/
def packFstat (faulted : Bool) (cause : BitVec 3) : BitVec 4 := cause ++ BitVec.ofBool faulted

/-- R28: `FSTAT[0]`. -/
def Block.faulted {c : Config} (b : Block c) : Bool := b.fstat.getLsbD 0

/-- R28: `FSTAT[3:1]`. -/
def Block.cause {c : Config} (b : Block c) : BitVec 3 := b.fstat.extractLsb' 1 3

/-- R60: the pin `faulted` shows FSTAT at all times. -/
def Block.pinFaulted {c : Config} (b : Block c) : Bool := b.faulted
/-- R60: the pins `fcause[2:0]` show FSTAT at all times. -/
def Block.pinFcause {c : Config} (b : Block c) : BitVec 3 := b.cause
/-- R60: the pins `fcmd[31:0]` show FCMD at all times. -/
def Block.pinFcmd {c : Config} (b : Block c) : BitVec 32 := b.fcmd

end Sys2Proof.Machine
end

