-- ==== Sys2Proof/Machine/Operands.lean ====
section
/-! DEFINITION. Machine/Operands.lean: how a command's operands name words and bits: the index translation
(45_bitops.md R150), the words of the data-in port (20_memory.md R43), and the values of a vector as numbers
(00_scope.md R11, R12, R14). -/

namespace Sys2Proof.Machine

/-- R11, R150: "`wordIndexFor(pos) = W - 1 - (pos / S)`". -/
def wordIndexFor (c : Config) (pos : Nat) : Nat := c.W - 1 - pos / c.S

/-- R11, R150: "`bitOffsetFor(pos) = pos mod S`". -/
def bitOffsetFor (c : Config) (pos : Nat) : Nat := pos % c.S

/-- The selected index names a word of the vector. -/
theorem wordIndexFor_lt (c : Config) (pos : Nat) : wordIndexFor c pos < c.W := by
  have := c.W_pos
  exact Nat.lt_of_le_of_lt (Nat.sub_le _ _) (by omega)

/-- The word that holds bit `pos` (R150). -/
def selectWord {c : Config} (v : Vec c) (pos : Nat) : Word c := v[wordIndexFor c pos]'(wordIndexFor_lt c pos)

/-- The vector with the word that holds bit `pos` replaced, every other word kept (R155). -/
def replaceWord {c : Config} (v : Vec c) (pos : Nat) (a : Word c) : Vec c :=
  v.set (wordIndexFor c pos) a (wordIndexFor_lt c pos)

/-- R150: "the one-hot word `onehot(pos) = 1 << bitOffsetFor(pos)`", its amount always in `0..S-1`. -/
def onehot (c : Config) (pos : Nat) : Word c := 1#c.S <<< bitOffsetFor c pos

/-- R43: "word `i` on `din[(W-i)*S - 1 : (W-1-i)*S]`". -/
def dinWord (c : Config) (din : BitVec (c.W * c.S)) (i : Nat) : Word c := din.extractLsb' ((c.W - 1 - i) * c.S) c.S

/-- R63: LDI's operand `x = din[S-1:0]`. -/
def dinLow (c : Config) (din : BitVec (c.W * c.S)) : Word c := din.extractLsb' 0 c.S

/-- Section 5 of 00_scope.md: `popcnt_S(a)`, "the number of 1 bits of the S-bit word `a`". -/
def popcnt {w : Nat} (a : BitVec w) : Nat := (List.range w).countP fun i => a.getLsbD i

/-- R141: the mask `2^first - 1`, computed in unbounded naturals as the rule asks. -/
def topMask (c : Config) : Word c := BitVec.ofNat c.S (2 ^ c.first - 1)

/-- R11: `PHYS(v) = sum over i of w[i] * 2^((W-1-i)*S)`, the value of all `W * S` stored bits. -/
def phys {c : Config} (v : Vec c) : Nat :=
  ((List.finRange c.W).map fun i : Fin c.W => v[i].toNat * 2 ^ ((c.W - 1 - i.val) * c.S)).sum

/-- R11: `VAL(v) = PHYS(v) mod 2^N`, the logical N-bit value. -/
def val {c : Config} (v : Vec c) : Nat := phys v % 2 ^ c.N

/-- R12: `BIT(v, pos)`, for `pos < W * S`. -/
def bitAt {c : Config} (v : Vec c) (pos : Nat) : Bool := (selectWord v pos).getLsbD (bitOffsetFor c pos)

/-- The low `k` bits of a word as binary digits, the most significant first. -/
def digits {w : Nat} (a : BitVec w) (k : Nat) : List Bool := (List.range k).reverse.map fun i => a.getLsbD i

/-- R14: the debug rendering as its groups of binary digits, "the leading group has exactly `first` digits and every
subsequent group has exactly `S` digits"; the separator stands between two groups. It is no operation of the block:
only the tests use it. -/
def render {c : Config} (v : Vec c) : List (List Bool) :=
  match v.toList with
  | [] => []
  | w :: ws => digits w c.first :: ws.map fun a => digits a c.S

end Sys2Proof.Machine
end

