-- ==== Sys2Proof/Machine/Ops.lean ====
section
/-! DEFINITION. Machine/Ops.lean: the named operations every command is written with: reading and writing a register,
responding, taking a fault and answering while faulted (60_exceptions.md R174, R176), reset (70_reset_and_hazards.md
R200), and taking the next input of the host (00_scope.md R3). -/

namespace Sys2Proof.Machine

/-- Section 5 of 00_scope.md: `x[r]`. -/
def Block.readReg {c : Config} (b : Block c) (r : Reg) : Vec c := b.regs[r]

/-- Section 5 of 00_scope.md: `x[r] <- v` "writes all `W` words at once". -/
def Block.writeReg {c : Config} (b : Block c) (r : Reg) (v : Vec c) : Block c := { b with regs := b.regs.set r v }

/-- Section 5 of 00_scope.md and R64: `respond(d)` ends the command with fault 0, cause 0 and data `d`. -/
def Block.respond {c : Config} (b : Block c) (d : BitVec 16) : Block c :=
  { b with rsps := b.rsps ++ [{ fault := false, cause := 0, data := d }] }

/-- R174: fault entry. FSTAT takes `faulted = 1` and the cause, FCMD the command word of this step, no bit-vector
register is written, and the response carries the cause. -/
def Block.takeFault {c : Config} (b : Block c) (k : Cause) : Block c :=
  { b with
    fstat := packFstat true (causeCode k)
    fcmd := b.cmd
    rsps := b.rsps ++ [{ fault := true, cause := causeCode k, data := 0 }] }

/-- R176: a command issued while `FSTAT.faulted = 1` answers the latched cause and changes no state. -/
def Block.answerFaulted {c : Config} (b : Block c) : Block c :=
  { b with rsps := b.rsps ++ [{ fault := true, cause := b.cause, data := 0 }] }

/-- R74 (1), R181: the one piece of state that changes what a command does. In the faulted state no rule is run
(R175); otherwise the rule is. Decoding before this check has no effect (it reads no state, R67), so the order of
R74 is kept. DEDUCED (log entry 9), safe. -/
def Block.unlessFaulted {c : Config} (b : Block c) (rule : Block c → Block c) : Block c :=
  if b.faulted then b.answerFaulted else rule b

/-- A command that decoded: its rule on the block, in the order of R74. It always answers a next state. -/
def State.perform (s : State) (rule : Block s.cfg → Block s.cfg) : Host.Outcome State Fault Refusal :=
  .next ⟨s.cfg, s.block.unlessFaulted rule⟩

/-- A command word that decodes to Illegal (R68, R172): it raises ILLEGAL_CMD, unless the block is faulted. -/
def State.performIllegal (s : State) : Host.Outcome State Fault Refusal :=
  s.perform fun b => b.takeFault .illegalCmd

/-- R151, R74 (3): the range check of TEST, SET and UNSET. "The check compares the whole 16-bit `pos` with `N`." -/
def Block.ifInRange {c : Config} (b : Block c) (pos : BitVec 16) (rule : Block c → Block c) : Block c :=
  if pos.toNat < c.N then rule b else b.takeFault .posRange

/-- R200, R33: reset, the only way out of the faulted state (R177; there is no return from a fault). Registers, FSTAT
and FCMD take their reset values. The ports are no state of the block, so the inputs still to come and the responses
already given stay. DEDUCED (log entry 6), safe. -/
def Block.applyReset {c : Config} (b : Block c) : Block c :=
  { b with regs := Vector.replicate 4 (zeroVec c), fstat := 0, fcmd := 0 }

/-- A command word and its data-in value arrive at the command port, and `rest` is what the host gives after it. -/
def Block.accept {c : Config} (b : Block c) (word : BitVec 32) (data : BitVec (c.W * c.S))
    (rest : List (HostInput c)) : Block c :=
  { b with cmd := word, din := data, queue := rest }

/-- What a step finds at the ports. -/
inductive Arrival (c : Config) where
  /-- no input: "with no command there is no step and no state changes" (R3) -/
  | idle
  /-- `rst` was asserted; the block is the one after reset -/
  | reset (after : Block c)
  /-- a command; the block has it at its port -/
  | command (before : Block c)
deriving DecidableEq, Repr

/-- Take the host's next input: one per step, in the order the host gave them (R3, R49). -/
def Block.nextInput {c : Config} (b : Block c) : Arrival c :=
  match b.queue with
  | [] => .idle
  | .rst :: rest => .reset { b.applyReset with queue := rest }
  | .command word data :: rest => .command (b.accept word data rest)

/-- The block to which the host will next issue `word` with `data`, before what it already meant to give. -/
def Block.issue {c : Config} (b : Block c) (word : BitVec 32) (data : BitVec (c.W * c.S)) : Block c :=
  { b with queue := .command word data :: b.queue }

end Sys2Proof.Machine
end

