-- ==== Sys2Proof/Machine/BitOps.lean ====
section
/-! DEFINITION. Machine/BitOps.lean: TEST, SET, UNSET (45_bitops.md R150 to R160). -/

namespace Sys2Proof.Machine

/-- R152: `b = (x[rs1].w[wordIndexFor(pos)] >> bitOffsetFor(pos)) & 1`. -/
def testWord {c : Config} (v : Vec c) (pos : Nat) : Word c := (selectWord v pos >>> bitOffsetFor c pos) &&& 1#c.S

/-- R153: `x[rd].w[j] | (1 << bitOffsetFor(pos))` in word `j` alone. -/
def setBitVec {c : Config} (v : Vec c) (pos : Nat) : Vec c := replaceWord v pos (selectWord v pos ||| onehot c pos)

/-- R154: `x[rd].w[j] & ~(1 << bitOffsetFor(pos))` in word `j` alone. -/
def unsetBitVec {c : Config} (v : Vec c) (pos : Nat) : Vec c := replaceWord v pos (selectWord v pos &&& ~~~(onehot c pos))

/-- R152: the bit is `rsp.data[0]`, `rsp.data[15:1] = 0`. -/
def testRule {c : Config} (rs1 : Reg) (pos : BitVec 16) (b : Block c) : Block c :=
  b.ifInRange pos fun b => b.respond ((testWord (b.readReg rs1) pos.toNat).setWidth 16)

/-- R153. -/
def setRule {c : Config} (rd : Reg) (pos : BitVec 16) (b : Block c) : Block c :=
  b.ifInRange pos fun b => (b.writeReg rd (setBitVec (b.readReg rd) pos.toNat)).respond 0

/-- R154. -/
def unsetRule {c : Config} (rd : Reg) (pos : BitVec 16) (b : Block c) : Block c :=
  b.ifInRange pos fun b => (b.writeReg rd (unsetBitVec (b.readReg rd) pos.toNat)).respond 0

/-- TEST, read one bit (R152). -/
def execTest (rs1 : Reg) (pos : BitVec 16) (s : State) : Host.Outcome State Fault Refusal := s.perform (testRule rs1 pos)

/-- SET, write one bit to 1 (R153). -/
def execSet (rd : Reg) (pos : BitVec 16) (s : State) : Host.Outcome State Fault Refusal := s.perform (setRule rd pos)

/-- UNSET, write one bit to 0 (R154). -/
def execUnset (rd : Reg) (pos : BitVec 16) (s : State) : Host.Outcome State Fault Refusal := s.perform (unsetRule rd pos)

end Sys2Proof.Machine
end

