-- ==== Sys2Proof/Machine/Construct.lean ====
section
/-! DEFINITION. Machine/Construct.lean: CLR, LDI, LDV (40_construct.md R90 to R94). -/

namespace Sys2Proof.Machine

/-- R91: every word zero except the last, which is `x`. -/
def lastWordVec {c : Config} (x : Word c) : Vec c :=
  Vector.ofFn fun i : Fin c.W => if i.val = c.W - 1 then x else 0

/-- R92: the `W` words of data-in, most significant first, stored whole and unmasked. -/
def dinVec {c : Config} (din : BitVec (c.W * c.S)) : Vec c := Vector.ofFn fun i : Fin c.W => dinWord c din i

/-- R90. -/
def clrRule {c : Config} (rd : Reg) (b : Block c) : Block c := (b.writeReg rd (zeroVec c)).respond 0

/-- R91. -/
def ldiRule {c : Config} (rd : Reg) (b : Block c) : Block c := (b.writeReg rd (lastWordVec (dinLow c b.din))).respond 0

/-- R92, with its own check of `W = 1`; the decoder already rejects that word (R69, log entry 11). -/
def ldvRule {c : Config} (rd : Reg) (b : Block c) : Block c :=
  if c.W = 1 then b.takeFault .illegalCmd else (b.writeReg rd (dinVec b.din)).respond 0

/-- CLR, zero-value construction (R90). -/
def execClr (rd : Reg) (s : State) : Host.Outcome State Fault Refusal := s.perform (clrRule rd)

/-- LDI, single-word construction (R91). -/
def execLdi (rd : Reg) (s : State) : Host.Outcome State Fault Refusal := s.perform (ldiRule rd)

/-- LDV, multi-word construction (R92). -/
def execLdv (rd : Reg) (s : State) : Host.Outcome State Fault Refusal := s.perform (ldvRule rd)

end Sys2Proof.Machine
end

