-- ==== Sys2Proof/Machine/Decrement.lean ====
section
/-! DEFINITION. Machine/Decrement.lean: DEC, the multi-word decrement (43_decrement.md R125 to R132). -/

namespace Sys2Proof.Machine

/-- R125: the borrow chain over the words of index below `k`, from index `k - 1` toward 0. A non-zero word is
decremented and ends the chain; a zero word wraps to `2^S - 1` and the borrow goes on; a borrow out of word 0 is
dropped. -/
def borrowFrom {c : Config} (v : Vec c) : (k : Nat) → k ≤ c.W → Vec c
  | 0, _ => v
  | k + 1, h =>
    if v[k] ≠ 0 then v.set k (v[k] - 1)
    else borrowFrom (v.set k (BitVec.allOnes c.S)) k (Nat.le_of_succ_le h)

/-- R125: the chain starts at word `W - 1`. -/
def decrementVec {c : Config} (v : Vec c) : Vec c := borrowFrom v c.W (Nat.le_refl c.W)

/-- R125: no flag and no borrow-out; the response carries data 0. -/
def decRule {c : Config} (rd : Reg) (b : Block c) : Block c :=
  (b.writeReg rd (decrementVec (b.readReg rd))).respond 0

/-- DEC, pre-decrement in place (R125). -/
def execDec (rd : Reg) (s : State) : Host.Outcome State Fault Refusal := s.perform (decRule rd)

end Sys2Proof.Machine
end

