-- ==== Sys2Proof/Machine/Logic.lean ====
section
/-! DEFINITION. Machine/Logic.lean: AND, the word-wise AND (42_and.md R120 to R123). -/

namespace Sys2Proof.Machine

/-- R120: "Word-wise AND across all `W` words, independent per word". Padding bits are ANDed like any other. -/
def andVec {c : Config} (a b : Vec c) : Vec c := Vector.ofFn fun i : Fin c.W => a[i] &&& b[i]

/-- R120. -/
def andRule {c : Config} (rd rs1 rs2 : Reg) (b : Block c) : Block c :=
  (b.writeReg rd (andVec (b.readReg rs1) (b.readReg rs2))).respond 0

/-- AND, bitwise AND of two vectors (R120). -/
def execAnd (rd rs1 rs2 : Reg) (s : State) : Host.Outcome State Fault Refusal := s.perform (andRule rd rs1 rs2)

end Sys2Proof.Machine
end

