-- ==== Sys2Proof/Machine/Popcount.lean ====
section
/-! DEFINITION. Machine/Popcount.lean: POPC, the population counter (44_popcount.md R140 to R145). -/

namespace Sys2Proof.Machine

/-- R140: word 0 masked to its `first` meaningful bits on read, the remaining words counted in full. -/
def logicalCount {c : Config} (v : Vec c) : Nat :=
  popcnt (v[0]'c.W_pos &&& topMask c) + (v.toList.tail.map popcnt).sum

/-- R140: POPC writes no state; the count is carried on 16 bits, which it fits (R142). -/
def popcRule {c : Config} (rs1 : Reg) (b : Block c) : Block c :=
  b.respond (BitVec.ofNat 16 (logicalCount (b.readReg rs1)))

/-- POPC, population count of the logical bits (R140). -/
def execPopc (rs1 : Reg) (s : State) : Host.Outcome State Fault Refusal := s.perform (popcRule rs1)

end Sys2Proof.Machine
end

