-- ==== Sys2Proof/Machine/Shift.lean ====
section
/-! DEFINITION. Machine/Shift.lean: SHL, the barrel shifter (41_shift.md R100 to R111). -/

namespace Sys2Proof.Machine

/-- R100 to R104: destination word `i`, with `upper = pos / S`, `lower = upper + 1`, `shift = pos mod S`. The lower
contribution is skipped by an explicit branch when `shift = 0`, so no word is ever shifted by `S` or more. The
rule's `i + upper <= W-1` is written `i + upper < W`. -/
def shiftedWord {c : Config} (src : Vec c) (pos i : Nat) : Word c :=
  let upper := pos / c.S
  let lower := upper + 1
  let shift := pos % c.S
  if h : i + upper < c.W then
    let t := src[i + upper] <<< shift
    if h' : shift ≠ 0 ∧ i + lower < c.W then t ||| (src[i + lower]'h'.2 >>> (c.S - shift)) else t
  else 0

/-- R100: the whole vector shifted; all of `src` is read before any word is written. -/
def shiftLeftVec {c : Config} (src : Vec c) (pos : Nat) : Vec c := Vector.ofFn fun i : Fin c.W => shiftedWord src pos i

/-- R105: the in-place form, word by word "from most-significant to least-significant, i.e. index 0 upward", reading
the vector being overwritten. The model runs `shiftLeftVec`; this one is here to be compared with it. -/
def shiftLeftAscending {c : Config} (v : Vec c) (pos : Nat) : Vec c :=
  (List.finRange c.W).foldl (fun acc (i : Fin c.W) => acc.set i (shiftedWord acc pos i)) v

/-- R100. -/
def shlRule {c : Config} (rd rs1 : Reg) (pos : BitVec 16) (b : Block c) : Block c :=
  (b.writeReg rd (shiftLeftVec (b.readReg rs1) pos.toNat)).respond 0

/-- SHL, left shift of the whole vector (R100). Every `pos` is legal. -/
def execShl (rd rs1 : Reg) (pos : BitVec 16) (s : State) : Host.Outcome State Fault Refusal :=
  s.perform (shlRule rd rs1 pos)

end Sys2Proof.Machine
end

