-- ==== Sys2Proof/Machine/Dispatch.lean ====
section
/-! DEFINITION. Machine/Dispatch.lean: one arm per command of the opcode table (30_encoding.md R65). -/

namespace Sys2Proof.Machine

/-- The meaning of a decoded command on the block that has it at its command port (R74 (4)). -/
def exec (i : Instr) (s : State) : Host.Outcome State Fault Refusal :=
  match i with
  | .clr rd => Sys2Proof.Machine.execClr rd s
  | .ldi rd => Sys2Proof.Machine.execLdi rd s
  | .ldv rd => Sys2Proof.Machine.execLdv rd s
  | .shl rd rs1 pos => Sys2Proof.Machine.execShl rd rs1 pos s
  | .and rd rs1 rs2 => Sys2Proof.Machine.execAnd rd rs1 rs2 s
  | .dec rd => Sys2Proof.Machine.execDec rd s
  | .popc rs1 => Sys2Proof.Machine.execPopc rs1 s
  | .test rs1 pos => Sys2Proof.Machine.execTest rs1 pos s
  | .set rd pos => Sys2Proof.Machine.execSet rd pos s
  | .unset rd pos => Sys2Proof.Machine.execUnset rd pos s

end Sys2Proof.Machine
end

