-- ==== Sys2Proof/Machine/Step.lean ====
section
/-! DEFINITION. Machine/Step.lean: one step of the block (00_scope.md R3, 30_encoding.md R74). -/

namespace Sys2Proof.Machine

/-- One step: take the host's next input (R3). With none, nothing changes (R3, R182). A command is decoded (R67); an
illegal one raises ILLEGAL_CMD (R68), a legal one runs its meaning; both answer the latched cause instead while the
block is faulted (R74, R176). -/
def step (s : State) : Host.Outcome State Fault Refusal :=
  match s.block.nextInput with
  | .idle => .next s
  | .reset after => .next ⟨s.cfg, after⟩
  | .command before =>
    match decode s.cfg before.cmd with
    | .illegal _ => State.performIllegal ⟨s.cfg, before⟩
    | .instr i => exec i ⟨s.cfg, before⟩

/-- `s` with the table's word as the host's next command; the data-in port keeps the value it shows (log entry 7). -/
def State.withFetchWord (s : State) (nbits w : Nat) : State :=
  ⟨s.cfg, s.block.issue (tableWord nbits w) s.block.din⟩

end Sys2Proof.Machine
end

