-- ==== Sys2Proof/Safety.lean ====
section
/-! DEFINITION. Safety.lean: what counts as a good run, and the terms the statements use: how a command completes,
faults or is turned away, what it may write, and when two blocks show the host the same. -/

namespace Sys2Proof.Machine

/-- R212: "The final state is good when `FSTAT.faulted = 0`." -/
def State.good (s : State) : Bool := !s.block.faulted

/-- The table after 10_state.md R25: the register a command writes, if any. -/
def destOf : Instr → Option Reg
  | .clr rd => some rd
  | .ldi rd => some rd
  | .ldv rd => some rd
  | .shl rd _ _ => some rd
  | .and rd _ _ => some rd
  | .dec rd => some rd
  | .popc _ => none
  | .test _ _ => none
  | .set rd _ => some rd
  | .unset rd _ => some rd

/-- The bit position a command names, which must be below `N` (R151): that of TEST, SET and UNSET. The `pos` of SHL
is a shift amount, not a position (R41). -/
def positionOf : Instr → Option (BitVec 16)
  | .clr _ => none
  | .ldi _ => none
  | .ldv _ => none
  | .shl _ _ _ => none
  | .and _ _ _ => none
  | .dec _ => none
  | .popc _ => none
  | .test _ pos => some pos
  | .set _ pos => some pos
  | .unset _ pos => some pos

/-- R65, R68 in fields: the word has a defined opcode and a 0 in every field the opcode table lists as must-be-zero.
(LDV in a block with `W = 1` is apart, R69.) -/
abbrev spellsCommand (w : BitVec 32) : Prop :=
  1 ≤ (opField w).toNat ∧ (opField w).toNat ≤ 10 ∧ zeroField w = 0 ∧
  (rdField w = 0 ∨ opField w ∈ [0x1#4, 0x2#4, 0x3#4, 0x4#4, 0x5#4, 0x6#4, 0x9#4, 0xA#4]) ∧
  (rs1Field w = 0 ∨ opField w ∈ [0x4#4, 0x5#4, 0x7#4, 0x8#4]) ∧
  (rs2Field w = 0 ∨ opField w ∈ [0x5#4]) ∧
  (posField w = 0 ∨ opField w ∈ [0x4#4, 0x8#4, 0x9#4, 0xA#4])

/-- R72: `r<<lo`, a register number placed in a command word. -/
def placed (r : Reg) (lo : Nat) : BitVec 32 := (bitsOfReg r).setWidth 32 <<< lo

/-- Every word of which `p` holds decodes to Illegal. -/
def IllegalWhen (c : Config) (p : BitVec 32 → Prop) : Prop := ∀ w, p w → ∃ why, decode c w = .illegal why

/-- R64: the command completed and answered `d`: one response more, FSTAT and FCMD as before, the ports untouched. -/
abbrev Block.CompletesWith {c : Config} (b b' : Block c) (d : BitVec 16) : Prop :=
  b'.rsps = b.rsps ++ [{ fault := false, cause := 0, data := d }] ∧ b'.fstat = b.fstat ∧ b'.fcmd = b.fcmd ∧
  b'.cmd = b.cmd ∧ b'.din = b.din ∧ b'.queue = b.queue

/-- Every register but `rd` is unchanged. -/
abbrev Block.KeepsOthers {c : Config} (b b' : Block c) (rd : Reg) : Prop := ∀ r, r ≠ rd → b'.readReg r = b.readReg r

/-- R174: the command `word` took the fault of code `code`: no register written, FSTAT and FCMD latched, the response
carries the cause; the inputs still to come are unchanged. -/
abbrev Block.FaultEntry {c : Config} (b b' : Block c) (word : BitVec 32) (code : BitVec 3) : Prop :=
  b'.regs = b.regs ∧ b'.faulted = true ∧ b'.cause = code ∧ b'.fcmd = word ∧
  b'.rsps = b.rsps ++ [{ fault := true, cause := code, data := 0 }] ∧ b'.queue = b.queue

/-- R176: the command was turned away in the faulted state: nothing changed but one response more. -/
abbrev Block.TurnedAway {c : Config} (b b' : Block c) : Prop :=
  b'.regs = b.regs ∧ b'.fstat = b.fstat ∧ b'.fcmd = b.fcmd ∧
  b'.rsps = b.rsps ++ [{ fault := true, cause := b.cause, data := 0 }] ∧ b'.queue = b.queue

/-- R28, R29, R171: FSTAT and FCMD tell the truth. Without a fault all is 0; with cause 1 the word in FCMD spells no
command for this block; with cause 2 it is a TEST, SET or UNSET of a position at or above `N`. -/
def Block.LatchLegal {c : Config} (b : Block c) : Prop :=
  (b.faulted = false ∧ b.cause = 0 ∧ b.fcmd = 0) ∨
  (b.faulted = true ∧ b.cause = 1 ∧ ∃ why, decode c b.fcmd = .illegal why) ∨
  (b.faulted = true ∧ b.cause = 2 ∧
    ∃ i pos, decode c b.fcmd = .instr i ∧ positionOf i = some pos ∧ c.N ≤ pos.toNat)

/-- R13, R25: two blocks that differ in the padding bits of their registers only. -/
abbrev Block.SameLogically {c : Config} (a b : Block c) : Prop :=
  (∀ r, val (a.readReg r) = val (b.readReg r)) ∧ a.fstat = b.fstat ∧ a.fcmd = b.fcmd ∧
  a.cmd = b.cmd ∧ a.din = b.din ∧ a.queue = b.queue ∧ a.rsps = b.rsps

/-- The number of commands among the host's inputs; `rst` is none. -/
def commandCount {c : Config} (q : List (HostInput c)) : Nat :=
  q.countP fun
    | .command _ _ => true
    | .rst => false

/-- `k` steps of the machine behind the host's interface. -/
def runSteps (k : Nat) (s : State) : Host.Outcome State Fault Refusal := Host.Core.run Sys2Proof.core k s

end Sys2Proof.Machine
end

