-- ==== Sys2Proof/Certificates/Slice0/Obligations.lean ====
section
/-! DEFINITION. Obligations.lean: the statements for the provers. Every one holds for EVERY configuration (N and S are
arguments, log entry 1). A command is run by `exec` on a block that has it at its command port, or by `step` on a block
to which the host issues its word; a response is the last entry of `rsps` (log entry 5). -/

open Sys2Proof Sys2Proof.Machine

/-! ### Parameters, values and index spaces -/

/-- R7, R8: `W` is the ceiling of `N / S`, `1 <= first <= S`, and `N = (W - 1) * S + first` (the spec marks the last two
as derived). -/
def Obligations.WordsAndTopBitsCoverTheWidth : Prop :=
  ∀ c : Config, (c.W - 1) * c.S < c.N ∧ c.N ≤ c.W * c.S ∧ 1 ≤ c.first ∧ c.first ≤ c.S ∧
    c.N = (c.W - 1) * c.S + c.first

/-- R203, R5, R6: a pair of parameters makes a block exactly when `1 <= N <= 65535` and `S >= 1`, and the block then has
that `N` and that `S` (the bound on `N` is decision D6). -/
def Obligations.ParametersOutsideTheBoundsAreRefused : Prop :=
  ∀ N S : Nat, ((Config.build N S).isSome = true ↔ 1 ≤ N ∧ N ≤ 65535 ∧ 1 ≤ S) ∧
    ∀ c, Config.build N S = some c → c.N = N ∧ c.S = S

/-- R11, R13: `PHYS` lies in `[0, 2^(W*S) - 1]`, loses nothing of the stored words, and `VAL` lies below `2^N`. -/
def Obligations.PhysRangeAndFaithfulness : Prop :=
  ∀ (c : Config) (u v : Vec c), phys u < 2 ^ (c.W * c.S) ∧ (phys u = phys v ↔ u = v) ∧ val u < 2 ^ c.N

/-- R12, R44: `BIT(v, pos)` is bit `pos` of `PHYS(v)`, and for `pos < N` also of `VAL(v)` (marked derived by the
spec). -/
def Obligations.BitIsBitOfPhys : Prop :=
  ∀ (c : Config) (v : Vec c) (pos : Nat),
    (pos < c.W * c.S → bitAt v pos = (phys v).testBit pos) ∧ (pos < c.N → bitAt v pos = (val v).testBit pos)

/-- R23: below `N` the index translation stays inside the vector without truncation, `pos` is recovered from it,
position 0 is bit 0 of the last word, and position `N - 1` is bit `first - 1` of word 0. -/
def Obligations.PositionsMapInsideTheVector : Prop :=
  ∀ c : Config,
    (∀ pos, pos < c.N → pos / c.S ≤ c.W - 1 ∧ wordIndexFor c pos ≤ c.W - 1 ∧
      (c.W - 1 - wordIndexFor c pos) * c.S + bitOffsetFor c pos = pos) ∧
    wordIndexFor c 0 = c.W - 1 ∧ bitOffsetFor c 0 = 0 ∧
    wordIndexFor c (c.N - 1) = 0 ∧ bitOffsetFor c (c.N - 1) = c.first - 1

/-! ### Command words -/

/-- R66: the ten rows as the spec prints them, when a word is a row's command, and that at most one row matches. -/
def Obligations.OpcodeRowsAreDisjoint : Prop :=
  opcodeRows =
    [⟨.clr, 0x10000000#32, 0xF3FFFFFF#32⟩, ⟨.ldi, 0x20000000#32, 0xF3FFFFFF#32⟩,
     ⟨.ldv, 0x30000000#32, 0xF3FFFFFF#32⟩, ⟨.shl, 0x40000000#32, 0xF0FF0000#32⟩,
     ⟨.and, 0x50000000#32, 0xF03FFFFF#32⟩, ⟨.dec, 0x60000000#32, 0xF3FFFFFF#32⟩,
     ⟨.popc, 0x70000000#32, 0xFCFFFFFF#32⟩, ⟨.test, 0x80000000#32, 0xFCFF0000#32⟩,
     ⟨.set, 0x90000000#32, 0xF3FF0000#32⟩, ⟨.unset, 0xA0000000#32, 0xF3FF0000#32⟩] ∧
  (∀ (r : OpcodeRow) (w : BitVec 32), r.holds w = true ↔ w &&& r.mask = r.pattern) ∧
  ∀ w : BitVec 32, ∀ r ∈ opcodeRows, ∀ r' ∈ opcodeRows, r.holds w = true → r'.holds w = true → r = r'

/-- R61, R66, R67: decoding an encoded well-formed command gives it back, with every operand at every value. -/
def Obligations.DecodeInvertsEncode : Prop :=
  ∀ (c : Config) (i : Instr), i.wellFormed c = true → decode c (encode i) = .instr i

/-- R66, R67, R69: a word that decodes to a command is the word of that command, which exists in the block. -/
def Obligations.EncodeInvertsDecode : Prop :=
  ∀ (c : Config) (w : BitVec 32) (i : Instr), decode c w = .instr i → encode i = w ∧ i.wellFormed c = true

/-- R68: a word matches no row exactly when its opcode is reserved or a must-be-zero field is not 0; such a word raises
ILLEGAL_CMD and changes no register; the all-zeros and the all-ones words are such words, and so is every word of
opcode 0 or 0xB to 0xF. -/
def Obligations.UnmatchedWordsAreIllegal : Prop :=
  (∀ w : BitVec 32, (∃ r ∈ opcodeRows, r.holds w = true) ↔ spellsCommand w) ∧
  ¬ spellsCommand 0x00000000#32 ∧ ¬ spellsCommand 0xFFFFFFFF#32 ∧
  (∀ w : BitVec 32, (opField w).toNat = 0 ∨ 11 ≤ (opField w).toNat → ¬ spellsCommand w) ∧
  ∀ (c : Config) (b : Block c) (w : BitVec 32) (d : BitVec (c.W * c.S)), b.faulted = false → ¬ spellsCommand w →
    ∃ b', step ⟨c, b.issue w d⟩ = .next ⟨c, b'⟩ ∧ b.FaultEntry b' w 1

/-- R69: in a block with `W = 1` the LDV word raises ILLEGAL_CMD; in any other it decodes to LDV. -/
def Obligations.LdvIsIllegalInOneWordBlocks : Prop :=
  ∀ (c : Config) (rd : Reg),
    (c.W = 1 → ∀ (b : Block c) (d : BitVec (c.W * c.S)), b.faulted = false →
      ∃ b', step ⟨c, b.issue (0x30000000#32 ||| placed rd 26) d⟩ = .next ⟨c, b'⟩ ∧
        b.FaultEntry b' (0x30000000#32 ||| placed rd 26) 1) ∧
    (1 < c.W → decode c (0x30000000#32 ||| placed rd 26) = .instr (.ldv rd))

/-- Sections 2.7 and 3 of 95_test_vectors.md: words written out there, one of each family, decode as it says. The DEC
word stands in section 3 (program P3, step 4), the others in section 2.7. -/
def Obligations.SpecWordsDecodeAsListed : Prop :=
  ∀ c : Config,
    decode c 0x1C000000#32 = .instr (.clr 3) ∧ decode c 0x20000000#32 = .instr (.ldi 0) ∧
    (1 < c.W → decode c 0x30000000#32 = .instr (.ldv 0)) ∧
    (c.W = 1 → ∃ why, decode c 0x30000000#32 = .illegal why) ∧
    decode c 0x4400FFFF#32 = .instr (.shl 1 0 65535) ∧ decode c 0x58400000#32 = .instr (.and 2 0 1) ∧
    decode c 0x64000000#32 = .instr (.dec 1) ∧ decode c 0x70000000#32 = .instr (.popc 0) ∧
    decode c 0x8300000A#32 = .instr (.test 3 10) ∧ decode c 0x9C000009#32 = .instr (.set 3 9) ∧
    decode c 0xAC000000#32 = .instr (.unset 3 0) ∧
    (∃ why, decode c 0x44400003#32 = .illegal why) ∧ ∃ why, decode c 0xB0000000#32 = .illegal why

/-- R73: MOV is a physical copy of all words, NOP changes no state (it only answers), CLRB spells UNSET, and the
two-operand forms are the three-operand ones with the destination as first source. -/
def Obligations.PseudoCommandsExpandExactly : Prop :=
  (∀ vd vs : Reg, pseudoMov vd vs = .shl vd vs 0) ∧ pseudoNop = .shl 0 0 0 ∧
  (∀ (vd : Reg) (pos : BitVec 16), pseudoClrb vd pos = .unset vd pos ∧ pseudoShlInPlace vd pos = .shl vd vd pos) ∧
  (∀ vd vt : Reg, pseudoAndInPlace vd vt = .and vd vd vt) ∧
  ∀ (c : Config) (b : Block c), b.faulted = false →
    (∀ vd vs : Reg, ∃ b', exec (pseudoMov vd vs) ⟨c, b⟩ = .next ⟨c, b'⟩ ∧ b'.readReg vd = b.readReg vs ∧
      b.KeepsOthers b' vd ∧ b.CompletesWith b' 0) ∧
    ∃ b', exec pseudoNop ⟨c, b⟩ = .next ⟨c, b'⟩ ∧ b'.regs = b.regs ∧ b.CompletesWith b' 0

/-! ### The step -/

/-- R67, R74: when the word the host issues decodes to a command, the step is that command's meaning on the block that
has the word and its data-in value at its ports (the ports are the model's, log entries 3 and 4). It says so of a faulted
block too because the model's check of the faulted state stands inside each meaning (log entry 9, DEDUCED); what such a
block does is R176 (FaultedBlockAnswersTheCause). -/
def Obligations.StepRunsTheDecodedCommand : Prop :=
  ∀ (c : Config) (b : Block c) (w : BitVec 32) (d : BitVec (c.W * c.S)) (i : Instr), decode c w = .instr i →
    step ⟨c, b.issue w d⟩ = exec i ⟨c, b.accept w d b.queue⟩

/-- R74: the order of checks in one step (decision D10 of the spec). -/
def Obligations.StepChecksInOrder : Prop :=
  ∀ (c : Config) (b : Block c) (w : BitVec 32) (d : BitVec (c.W * c.S)),
    (b.faulted = true → ∃ b', step ⟨c, b.issue w d⟩ = .next ⟨c, b'⟩ ∧ b.TurnedAway b') ∧
    (b.faulted = false → (∃ why, decode c w = .illegal why) →
      ∃ b', step ⟨c, b.issue w d⟩ = .next ⟨c, b'⟩ ∧ b.FaultEntry b' w 1) ∧
    (b.faulted = false → ∀ i pos, decode c w = .instr i → positionOf i = some pos → c.N ≤ pos.toNat →
      ∃ b', step ⟨c, b.issue w d⟩ = .next ⟨c, b'⟩ ∧ b.FaultEntry b' w 2) ∧
    (b.faulted = false → ∀ i, decode c w = .instr i → (∀ pos, positionOf i = some pos → pos.toNat < c.N) →
      ∃ b' x, exec i ⟨c, b.accept w d b.queue⟩ = .next ⟨c, b'⟩ ∧ step ⟨c, b.issue w d⟩ = .next ⟨c, b'⟩ ∧
        (b.accept w d b.queue).CompletesWith b' x)

/-- R178: whatever the word, one step raises at most one fault, chosen in this order: in the faulted state none is raised
and the command is turned away; else an illegal word raises ILLEGAL_CMD, whatever its position; else a position
`pos >= N` raises POS_RANGE; else no fault is raised. A TEST word with a non-zero `zero` field and `pos >= N` raises
ILLEGAL_CMD (decision D10). -/
def Obligations.IllegalCommandBeforePosition : Prop :=
  ∀ (c : Config) (b : Block c) (w : BitVec 32) (d : BitVec (c.W * c.S)),
    ∃ b', step ⟨c, b.issue w d⟩ = .next ⟨c, b'⟩ ∧
      (b.faulted = true → b.TurnedAway b') ∧
      (b.faulted = false → (∃ why, decode c w = .illegal why) → b.FaultEntry b' w 1) ∧
      (b.faulted = false → ∀ i, decode c w = .instr i →
        (∀ pos, positionOf i = some pos → c.N ≤ pos.toNat → b.FaultEntry b' w 2) ∧
        ((∀ pos, positionOf i = some pos → pos.toNat < c.N) → b'.faulted = false)) ∧
      (b.faulted = false → opField w = 0x8 → zeroField w ≠ 0 → c.N ≤ (posField w).toNat → b.FaultEntry b' w 1)

/-- R174: when a step raises a fault in a running block, FSTAT takes `faulted = 1` and the code of the fault raised (1 for
an illegal word, 2 for a position `pos >= N`), FCMD the command word of the step, no register is written, and the
response is `fault = 1`, that code, data 0; a step that raises neither does not enter the faulted state
(decision D11). -/
def Obligations.FaultEntryIsPrecise : Prop :=
  ∀ (c : Config) (b b' : Block c) (w : BitVec 32) (d : BitVec (c.W * c.S)),
    b.faulted = false → step ⟨c, b.issue w d⟩ = .next ⟨c, b'⟩ →
      ((∃ why, decode c w = .illegal why) → b.FaultEntry b' w 1 ∧ b'.fstat = 0x3#4) ∧
      ((∃ i pos, decode c w = .instr i ∧ positionOf i = some pos ∧ c.N ≤ pos.toNat) →
        b.FaultEntry b' w 2 ∧ b'.fstat = 0x5#4) ∧
      (b'.faulted = true → (∃ why, decode c w = .illegal why) ∨
        ∃ i pos, decode c w = .instr i ∧ positionOf i = some pos ∧ c.N ≤ pos.toNat)

/-- R172, R173: a command issued to a running block raises ILLEGAL_CMD (code 1) exactly when its word decodes to
Illegal, and POS_RANGE (code 2) exactly when it is a TEST, SET or UNSET with `pos >= N`; the word is recorded, and its
bits 15:0 are the offending position (decisions D9, D10). -/
def Obligations.FaultCausesAreExact : Prop :=
  ∀ (c : Config) (b b' : Block c) (w : BitVec 32) (d : BitVec (c.W * c.S)),
    b.faulted = false → step ⟨c, b.issue w d⟩ = .next ⟨c, b'⟩ →
      ((b'.faulted = true ∧ b'.cause = 1) ↔ ∃ why, decode c w = .illegal why) ∧
      ((b'.faulted = true ∧ b'.cause = 2) ↔
        ∃ i pos, decode c w = .instr i ∧ positionOf i = some pos ∧ c.N ≤ pos.toNat) ∧
      (b'.faulted = true → b'.fcmd = w) ∧
      (∀ i pos, decode c w = .instr i → positionOf i = some pos → posField w = pos)

/-- R176: a command issued to a faulted block, legal or not, changes no state and answers the latched cause
(decision D11). -/
def Obligations.FaultedBlockAnswersTheCause : Prop :=
  ∀ (c : Config) (b : Block c) (w : BitVec 32) (d : BitVec (c.W * c.S)), b.faulted = true →
    ∃ b', step ⟨c, b.issue w d⟩ = .next ⟨c, b'⟩ ∧ b.TurnedAway b'

/-- R175, R176: until `rst`, a faulted block executes nothing over any number of steps: registers, FSTAT and FCMD keep
their values and every command taken answers the first fault's cause. That `rst` is an input with a step of its own, and
that inputs and responses stand in lists, is the model's (log entries 3, 5 and 6). -/
def Obligations.FaultedStateLastsUntilReset : Prop :=
  ∀ (c : Config) (b : Block c) (k : Nat), b.faulted = true → HostInput.rst ∉ b.queue →
    ∃ b', runSteps k ⟨c, b⟩ = .next ⟨c, b'⟩ ∧ b'.regs = b.regs ∧ b'.fstat = b.fstat ∧ b'.fcmd = b.fcmd ∧
      b'.rsps = b.rsps ++ List.replicate (min k b.queue.length) { fault := true, cause := b.cause, data := 0 }

/-- R33: after reset every word of every register is 0, FSTAT is 0 and FCMD is 0, in the model's reset state and in that
of every configuration (that reset performs the default construction is the spec's decision D12). -/
def Obligations.ResetZeroesTheState : Prop :=
  ∀ s : State, (s = State.reset ∨ ∃ c, s = State.resetFor c) →
    (∀ (r : Reg) (i : Fin s.cfg.W), (s.block.readReg r)[i] = 0) ∧ s.block.fstat = 0 ∧ s.block.fcmd = 0 ∧
    s.block.faulted = false ∧ s.block.cause = 0

/-- R200, R177: `rst` puts the state into its reset values from any state, the faulted one too. That it is an input of
the host's list, taken in a step of its own, and leaves the other inputs and the responses alone is the model's choice
(log entries 3, 5 and 6). -/
def Obligations.ResetInputRestoresTheResetValues : Prop :=
  ∀ (c : Config) (b : Block c) (rest : List (HostInput c)), b.queue = .rst :: rest →
    ∃ b', step ⟨c, b⟩ = .next ⟨c, b'⟩ ∧ (∀ (r : Reg) (i : Fin c.W), (b'.readReg r)[i] = 0) ∧ b'.fstat = 0 ∧
      b'.fcmd = 0 ∧ b'.faulted = false ∧ b'.queue = rest ∧ b'.rsps = b.rsps

/-- R201: after reset, POPC of any register answers 0 and TEST of any position below `N` answers 0 (marked derived by
the spec). -/
def Obligations.AfterResetEveryReadAnswersZero : Prop :=
  ∀ (c : Config) (r : Reg),
    (∃ b', exec (.popc r) (State.resetFor c) = .next ⟨c, b'⟩ ∧ (Block.reset c).CompletesWith b' 0) ∧
    ∀ pos : BitVec 16, pos.toNat < c.N →
      ∃ b', exec (.test r pos) (State.resetFor c) = .next ⟨c, b'⟩ ∧ (Block.reset c).CompletesWith b' 0

/-- R3, R60, R204: with no input nothing changes; a command is answered by exactly one response, after those already
given; `rst` is answered by none. The model's own are: that the inputs stand in a list and the responses in another (log
entries 3 and 5), the port latches `cmd` and `din` (log entry 4), and that `rst` takes a step and is answered by no
response (log entry 6, DEDUCED). -/
def Obligations.OneResponsePerCommand : Prop :=
  ∀ (c : Config) (b : Block c), ∃ b', step ⟨c, b⟩ = .next ⟨c, b'⟩ ∧ (b.queue = [] → b' = b) ∧
    (∀ rest, b.queue = .rst :: rest → b'.queue = rest ∧ b'.rsps = b.rsps) ∧
    ∀ w d rest, b.queue = .command w d :: rest → b'.queue = rest ∧ b'.cmd = w ∧ b'.din = d ∧
      ∃ r, b'.rsps = b.rsps ++ [r]

/-- R170, R211: every step of every state answers a next state, of the same configuration. That nothing stops the machine
is the model's reading (log entry 12, DEDUCED: the spec's faults are latched, so they are next states and Fault is
empty); that the configuration stands in State, where no command changes `N` or `S` (R5), is its choice (log entry 1). -/
def Obligations.EveryStepAnswersANextState : Prop :=
  ∀ s : State, ∃ b' : Block s.cfg, step s = .next ⟨s.cfg, b'⟩

/-- R49, R204, R211, R212: from any state, as many steps as the host has inputs answer every command and leave nothing
pending, and the answers come in command order: the first `k` inputs are answered by the responses given in the first
`k` steps, and the next `m` inputs by the responses that the next `m` steps add after them. That inputs and responses
stand in lists, and that `rst` takes a step and is answered by no response, is the model's (log entries 3, 5 and 6). -/
def Obligations.RunAnswersEveryCommand : Prop :=
  ∀ (c : Config) (b : Block c),
    (∃ b' answers, runSteps b.queue.length ⟨c, b⟩ = .next ⟨c, b'⟩ ∧ b'.queue = [] ∧
      b'.rsps = b.rsps ++ answers ∧ answers.length = commandCount b.queue) ∧
    ∀ k m : Nat, ∃ b₁ b₂ early late,
      runSteps k ⟨c, b⟩ = .next ⟨c, b₁⟩ ∧ runSteps (k + m) ⟨c, b⟩ = .next ⟨c, b₂⟩ ∧
      b₁.queue = b.queue.drop k ∧ b₂.queue = b.queue.drop (k + m) ∧
      b₁.rsps = b.rsps ++ early ∧ early.length = commandCount (b.queue.take k) ∧
      b₂.rsps = b.rsps ++ early ++ late ∧ late.length = commandCount ((b.queue.drop k).take m)

/-- R49: a command reads the state left by earlier commands only: what a step does does not depend on the inputs that
come later. -/
def Obligations.StepIgnoresLaterInputs : Prop :=
  ∀ (c : Config) (b b' : Block c) (x : HostInput c) (later later' : List (HostInput c)),
    step ⟨c, { b with queue := x :: later }⟩ = .next ⟨c, b'⟩ →
      b'.queue = later ∧ step ⟨c, { b with queue := x :: later' }⟩ = .next ⟨c, { b' with queue := later' }⟩

/-! ### What each command does -/

/-- R90: CLR. -/
def Obligations.ClrZeroesTheRegister : Prop :=
  ∀ (c : Config) (b : Block c) (rd : Reg), b.faulted = false →
    encode (.clr rd) = 0x10000000#32 ||| placed rd 26 ∧
    (∃ b', exec (.clr rd) ⟨c, b⟩ = .next ⟨c, b'⟩ ∧ (∀ i : Fin c.W, (b'.readReg rd)[i] = 0) ∧
      val (b'.readReg rd) = 0 ∧ b.KeepsOthers b' rd ∧ b.CompletesWith b' 0) ∧
    IllegalWhen c fun w => opField w = 0x1 ∧ (rs1Field w ≠ 0 ∨ rs2Field w ≠ 0 ∨ zeroField w ≠ 0 ∨ posField w ≠ 0)

/-- R91: LDI, with its corner cases on padding and on `W > 1`. -/
def Obligations.LdiLoadsTheLastWord : Prop :=
  ∀ (c : Config) (b : Block c) (rd : Reg), b.faulted = false →
    encode (.ldi rd) = 0x20000000#32 ||| placed rd 26 ∧
    (∃ b', exec (.ldi rd) ⟨c, b⟩ = .next ⟨c, b'⟩ ∧
      (∀ i : Fin c.W, (b'.readReg rd)[i] = if i.val = c.W - 1 then b.din.extractLsb' 0 c.S else 0) ∧
      phys (b'.readReg rd) = b.din.toNat % 2 ^ c.S ∧ val (b'.readReg rd) = b.din.toNat % 2 ^ c.S % 2 ^ c.N ∧
      b.KeepsOthers b' rd ∧ b.CompletesWith b' 0) ∧
    IllegalWhen c fun w => opField w = 0x2 ∧ (rs1Field w ≠ 0 ∨ rs2Field w ≠ 0 ∨ zeroField w ≠ 0 ∨ posField w ≠ 0)

/-- R92: LDV, which faults in a block with `W = 1`. -/
def Obligations.LdvLoadsEveryWord : Prop :=
  ∀ (c : Config) (b : Block c) (rd : Reg), b.faulted = false →
    encode (.ldv rd) = 0x30000000#32 ||| placed rd 26 ∧
    (c.W = 1 → ∃ b', exec (.ldv rd) ⟨c, b⟩ = .next ⟨c, b'⟩ ∧ b.FaultEntry b' b.cmd 1) ∧
    (1 < c.W → ∃ b', exec (.ldv rd) ⟨c, b⟩ = .next ⟨c, b'⟩ ∧
      (∀ i : Fin c.W, (b'.readReg rd)[i] = b.din.extractLsb' ((c.W - 1 - i.val) * c.S) c.S) ∧
      phys (b'.readReg rd) = b.din.toNat ∧ val (b'.readReg rd) = b.din.toNat % 2 ^ c.N ∧
      b.KeepsOthers b' rd ∧ b.CompletesWith b' 0) ∧
    IllegalWhen c fun w => opField w = 0x3 ∧
      (rs1Field w ≠ 0 ∨ rs2Field w ≠ 0 ∨ zeroField w ≠ 0 ∨ posField w ≠ 0 ∨ c.W = 1)

/-- R93: after LDV, TEST of every position below `N` answers that bit of the loaded number (marked derived by the
spec). -/
def Obligations.LdvThenTestReadsDataIn : Prop :=
  ∀ (c : Config) (b : Block c) (rd : Reg) (pos : BitVec 16), b.faulted = false → 1 < c.W → pos.toNat < c.N →
    ∃ b' b'', exec (.ldv rd) ⟨c, b⟩ = .next ⟨c, b'⟩ ∧ exec (.test rd pos) ⟨c, b'⟩ = .next ⟨c, b''⟩ ∧
      b'.CompletesWith b'' (if b.din.getLsbD pos.toNat then 1 else 0)

/-- R100: SHL, word by word: `upper = pos / S`, `lower = upper + 1`, `shift = pos mod S`. -/
def Obligations.ShlFunnelsEveryWord : Prop :=
  ∀ (c : Config) (b : Block c) (rd rs1 : Reg) (pos : BitVec 16), b.faulted = false →
    encode (.shl rd rs1 pos) = 0x40000000#32 ||| placed rd 26 ||| placed rs1 24 ||| pos.setWidth 32 ∧
    (∃ b', exec (.shl rd rs1 pos) ⟨c, b⟩ = .next ⟨c, b'⟩ ∧
      (∀ i : Fin c.W, (b'.readReg rd)[i] =
        if h : i.val + pos.toNat / c.S < c.W then
          ((b.readReg rs1)[i.val + pos.toNat / c.S] <<< (pos.toNat % c.S)) |||
            (if h' : pos.toNat % c.S ≠ 0 ∧ i.val + (pos.toNat / c.S + 1) < c.W then
              (b.readReg rs1)[i.val + (pos.toNat / c.S + 1)]'h'.2 >>> (c.S - pos.toNat % c.S)
            else 0)
        else 0) ∧
      b.KeepsOthers b' rd ∧ b.CompletesWith b' 0) ∧
    IllegalWhen c fun w => opField w = 0x4 ∧ (rs2Field w ≠ 0 ∨ zeroField w ≠ 0)

/-- R108: the closed form of SHL on the stored and on the logical value (marked derived by the spec from the word-level
rules). -/
def Obligations.ShlMultipliesByPowerOfTwo : Prop :=
  ∀ (c : Config) (b : Block c) (rd rs1 : Reg) (pos : BitVec 16), b.faulted = false →
    ∃ b', exec (.shl rd rs1 pos) ⟨c, b⟩ = .next ⟨c, b'⟩ ∧
      phys (b'.readReg rd) = phys (b.readReg rs1) * 2 ^ pos.toNat % 2 ^ (c.W * c.S) ∧
      val (b'.readReg rd) = val (b.readReg rs1) * 2 ^ pos.toNat % 2 ^ c.N

/-- R106: a shift by 0 is a physical copy, padding bits included. -/
def Obligations.ShlByZeroCopies : Prop :=
  ∀ (c : Config) (b : Block c) (rd rs1 : Reg), b.faulted = false →
    ∃ b', exec (.shl rd rs1 0) ⟨c, b⟩ = .next ⟨c, b'⟩ ∧ b'.readReg rd = b.readReg rs1 ∧ b.KeepsOthers b' rd

/-- R107: (a) from `W * S` on every word is 0, padding included; (b) from `N` to below `W * S` word 0 is the old last
word shifted by `pos - (W-1)*S` and every other word is 0; in both the logical value is 0 (marked derived by the
spec). -/
def Obligations.ShlByWidthOrMoreIsLogicallyZero : Prop :=
  ∀ (c : Config) (b : Block c) (rd rs1 : Reg) (pos : BitVec 16), b.faulted = false → c.N ≤ pos.toNat →
    ∃ b', exec (.shl rd rs1 pos) ⟨c, b⟩ = .next ⟨c, b'⟩ ∧ val (b'.readReg rd) = 0 ∧
      (c.W * c.S ≤ pos.toNat → ∀ i : Fin c.W, (b'.readReg rd)[i] = 0) ∧
      (pos.toNat < c.W * c.S → ∀ i : Fin c.W, (b'.readReg rd)[i] =
        if i.val = 0 then (b.readReg rs1)[c.W - 1]'(Nat.sub_lt c.W_pos Nat.one_pos) <<< (pos.toNat - (c.W - 1) * c.S)
        else 0)

/-- R105: the ascending in-place loop over the words gives the words of the scratch-buffer form that the model runs. -/
def Obligations.AscendingShiftInPlaceAgrees : Prop :=
  ∀ (c : Config) (v : Vec c) (pos : Nat), shiftLeftAscending v pos = shiftLeftVec v pos

/-- R110: the mutating form `SHL vd, vd, pos` and the pure form `SHL vd, vs, pos` agree word for word, and the pure form
leaves the source unchanged. -/
def Obligations.PureAndMutatingShiftsAgree : Prop :=
  ∀ (c : Config) (b : Block c) (vd vs : Reg) (pos : BitVec 16), b.faulted = false → vd ≠ vs →
    ∃ p m, exec (.shl vd vs pos) ⟨c, b⟩ = .next ⟨c, p⟩ ∧ exec (.shl vs vs pos) ⟨c, b⟩ = .next ⟨c, m⟩ ∧
      p.readReg vd = m.readReg vs ∧ p.readReg vs = b.readReg vs

/-- R111: two shifts of one register compose, on the stored and on the logical value (marked derived by the spec). -/
def Obligations.ShiftsCompose : Prop :=
  ∀ (c : Config) (b : Block c) (a : Reg) (p q pq : BitVec 16), b.faulted = false → p.toNat + q.toNat = pq.toNat →
    ∃ b₁ b₂ b₃, exec (.shl a a p) ⟨c, b⟩ = .next ⟨c, b₁⟩ ∧ exec (.shl a a q) ⟨c, b₁⟩ = .next ⟨c, b₂⟩ ∧
      exec (.shl a a pq) ⟨c, b⟩ = .next ⟨c, b₃⟩ ∧ phys (b₂.readReg a) = phys (b₃.readReg a) ∧
      val (b₂.readReg a) = val (b₃.readReg a)

/-- R120: AND, word by word. -/
def Obligations.AndIsWordwise : Prop :=
  ∀ (c : Config) (b : Block c) (rd rs1 rs2 : Reg), b.faulted = false →
    encode (.and rd rs1 rs2) = 0x50000000#32 ||| placed rd 26 ||| placed rs1 24 ||| placed rs2 22 ∧
    (∃ b', exec (.and rd rs1 rs2) ⟨c, b⟩ = .next ⟨c, b'⟩ ∧
      (∀ i : Fin c.W, (b'.readReg rd)[i] = (b.readReg rs1)[i] &&& (b.readReg rs2)[i]) ∧
      b.KeepsOthers b' rd ∧ b.CompletesWith b' 0) ∧
    IllegalWhen c fun w => opField w = 0x5 ∧ (zeroField w ≠ 0 ∨ posField w ≠ 0)

/-- R122: the closed form of AND on the stored value, on the logical value and bit by bit (marked derived by the
spec). -/
def Obligations.AndOfStoredAndLogicalValues : Prop :=
  ∀ (c : Config) (b : Block c) (rd rs1 rs2 : Reg), b.faulted = false →
    ∃ b', exec (.and rd rs1 rs2) ⟨c, b⟩ = .next ⟨c, b'⟩ ∧
      phys (b'.readReg rd) = phys (b.readReg rs1) &&& phys (b.readReg rs2) ∧
      val (b'.readReg rd) = val (b.readReg rs1) &&& val (b.readReg rs2) ∧
      ∀ pos, pos < c.N → bitAt (b'.readReg rd) pos = (bitAt (b.readReg rs1) pos && bitAt (b.readReg rs2) pos)

/-- R123: AND is commutative and idempotent on the written words, and associative word by word (the spec marks the last
two as derived). -/
def Obligations.AndIsCommutativeAndIdempotent : Prop :=
  ∀ (c : Config) (b : Block c) (vd vs vt : Reg),
    exec (.and vd vs vt) ⟨c, b⟩ = exec (.and vd vt vs) ⟨c, b⟩ ∧
    (b.faulted = false → ∃ b', exec (.and vd vs vs) ⟨c, b⟩ = .next ⟨c, b'⟩ ∧ b'.readReg vd = b.readReg vs) ∧
    ∀ u v w : Vec c, andVec (andVec u v) w = andVec u (andVec v w)

/-- R125, R126: DEC. Every trailing zero word becomes `2^S - 1`, the last non-zero word is decreased by 1, the words
above it are untouched; from all words zero, every word becomes `2^S - 1`. -/
def Obligations.DecRipplesTheBorrow : Prop :=
  ∀ (c : Config) (b : Block c) (rd : Reg), b.faulted = false →
    encode (.dec rd) = 0x60000000#32 ||| placed rd 26 ∧
    (∃ b', exec (.dec rd) ⟨c, b⟩ = .next ⟨c, b'⟩ ∧
      (∀ j : Fin c.W, (b.readReg rd)[j] ≠ 0 → (∀ i : Fin c.W, j < i → (b.readReg rd)[i] = 0) →
        (∀ i : Fin c.W, j < i → (b'.readReg rd)[i] = BitVec.allOnes c.S) ∧
        (b'.readReg rd)[j] = (b.readReg rd)[j] - 1 ∧
        ∀ i : Fin c.W, i < j → (b'.readReg rd)[i] = (b.readReg rd)[i]) ∧
      ((∀ i : Fin c.W, (b.readReg rd)[i] = 0) → ∀ i : Fin c.W, (b'.readReg rd)[i] = BitVec.allOnes c.S) ∧
      b.KeepsOthers b' rd ∧ b.CompletesWith b' 0) ∧
    IllegalWhen c fun w => opField w = 0x6 ∧ (rs1Field w ≠ 0 ∨ rs2Field w ≠ 0 ∨ zeroField w ≠ 0 ∨ posField w ≠ 0)

/-- R127: DEC of an all-zero value sets every bit of every word, padding included: physically a wrap modulo
`2^(W*S)`, logically `2^N - 1`. -/
def Obligations.DecOfZeroWrapsEveryWord : Prop :=
  ∀ (c : Config) (b : Block c) (rd : Reg), b.faulted = false → (∀ i : Fin c.W, (b.readReg rd)[i] = 0) →
    ∃ b', exec (.dec rd) ⟨c, b⟩ = .next ⟨c, b'⟩ ∧ (∀ i : Fin c.W, ((b'.readReg rd)[i]).toNat = 2 ^ c.S - 1) ∧
      phys (b'.readReg rd) = 2 ^ (c.W * c.S) - 1 ∧ val (b'.readReg rd) = 2 ^ c.N - 1

/-- R128, R129: the closed form of DEC: one less modulo `2^(W*S)` on the stored value, one less modulo `2^N` on the
logical value, whatever the padding bits held (marked derived by the spec). -/
def Obligations.DecSubtractsOne : Prop :=
  ∀ (c : Config) (b : Block c) (rd : Reg), b.faulted = false →
    ∃ b', exec (.dec rd) ⟨c, b⟩ = .next ⟨c, b'⟩ ∧
      phys (b'.readReg rd) = (phys (b.readReg rd) + (2 ^ (c.W * c.S) - 1)) % 2 ^ (c.W * c.S) ∧
      val (b'.readReg rd) = (val (b.readReg rd) + (2 ^ c.N - 1)) % 2 ^ c.N

/-- R132: `k` DEC commands take `k` from the logical value modulo `2^N`, and its period is exactly `2^N` (marked derived
by the spec; the commands stand at the front of the host's list, log entry 3). -/
def Obligations.RepeatedDecCountsDown : Prop :=
  ∀ (c : Config) (b : Block c) (rd : Reg) (k : Nat) (d : BitVec (c.W * c.S)) (later : List (HostInput c)),
    b.faulted = false →
    ∃ b', runSteps k ⟨c, { b with queue := List.replicate k (.command (encode (.dec rd)) d) ++ later }⟩ = .next ⟨c, b'⟩ ∧
      (val (b'.readReg rd) + k) % 2 ^ c.N = val (b.readReg rd) ∧
      (val (b'.readReg rd) = val (b.readReg rd) ↔ 2 ^ c.N ∣ k)

/-- R140, R142: POPC answers the count of word 0 masked to its `first` bits plus the counts of the other words; it lies
in `[0, N]`, fits the 16-bit answer, and no state is written. -/
def Obligations.PopcCountsMaskedWords : Prop :=
  ∀ (c : Config) (b : Block c) (rs1 : Reg), b.faulted = false →
    encode (.popc rs1) = 0x70000000#32 ||| placed rs1 24 ∧
    (∃ b' x, exec (.popc rs1) ⟨c, b⟩ = .next ⟨c, b'⟩ ∧
      x.toNat = ∑ i : Fin c.W,
        (if i.val = 0 then popcnt ((b.readReg rs1)[i] &&& BitVec.ofNat c.S (2 ^ c.first - 1))
         else popcnt (b.readReg rs1)[i]) ∧
      x.toNat ≤ c.N ∧ b'.regs = b.regs ∧ b.CompletesWith b' x) ∧
    IllegalWhen c fun w => opField w = 0x7 ∧ (rdField w ≠ 0 ∨ rs2Field w ≠ 0 ∨ zeroField w ≠ 0 ∨ posField w ≠ 0)

/-- R143: POPC answers the number of positions in `[0, N)` whose bit is 1, which is the number of 1 bits of `VAL`
(marked derived by the spec). -/
def Obligations.PopcCountsLogicalBits : Prop :=
  ∀ (c : Config) (b : Block c) (rs1 : Reg), b.faulted = false →
    ∃ b' x, exec (.popc rs1) ⟨c, b⟩ = .next ⟨c, b'⟩ ∧ b.CompletesWith b' x ∧
      x.toNat = (List.range c.N).countP (fun pos => bitAt (b.readReg rs1) pos) ∧
      x.toNat = (List.range c.N).countP (fun pos => (val (b.readReg rs1)).testBit pos)

/-- R145: on a block with padding, after CLR then DEC word 0 is `2^S - 1`, POPC answers `N`, and word 0 still holds
`2^S - 1` afterwards. -/
def Obligations.PopcMasksOnReadOnly : Prop :=
  ∀ (c : Config) (b : Block c) (r : Reg), b.faulted = false → c.first < c.S →
    ∃ b₁ b₂ b₃, exec (.clr r) ⟨c, b⟩ = .next ⟨c, b₁⟩ ∧ exec (.dec r) ⟨c, b₁⟩ = .next ⟨c, b₂⟩ ∧
      exec (.popc r) ⟨c, b₂⟩ = .next ⟨c, b₃⟩ ∧ (b₂.readReg r)[0]'c.W_pos = BitVec.allOnes c.S ∧
      b₂.CompletesWith b₃ (BitVec.ofNat 16 c.N) ∧ (b₃.readReg r)[0]'c.W_pos = BitVec.allOnes c.S

/-- R152: TEST answers bit `pos mod S` of word `W - 1 - pos / S`, in `data[0]`, and writes nothing; with `pos >= N` it
raises POS_RANGE. -/
def Obligations.TestAnswersOneBit : Prop :=
  ∀ (c : Config) (b : Block c) (rs1 : Reg) (pos : BitVec 16), b.faulted = false →
    encode (.test rs1 pos) = 0x80000000#32 ||| placed rs1 24 ||| pos.setWidth 32 ∧
    (pos.toNat < c.N → ∃ b' x, exec (.test rs1 pos) ⟨c, b⟩ = .next ⟨c, b'⟩ ∧ b'.regs = b.regs ∧ b.CompletesWith b' x ∧
      x.toNat = ((b.readReg rs1)[wordIndexFor c pos.toNat]'(wordIndexFor_lt c _)).toNat / 2 ^ (pos.toNat % c.S) % 2) ∧
    (c.N ≤ pos.toNat → ∃ b', exec (.test rs1 pos) ⟨c, b⟩ = .next ⟨c, b'⟩ ∧ b.FaultEntry b' b.cmd 2) ∧
    IllegalWhen c fun w => opField w = 0x8 ∧ (rdField w ≠ 0 ∨ rs2Field w ≠ 0 ∨ zeroField w ≠ 0)

/-- R153: SET ORs the one-hot word into word `W - 1 - pos / S` and writes no other word; with `pos >= N` it raises
POS_RANGE. -/
def Obligations.SetWritesOneBitToOne : Prop :=
  ∀ (c : Config) (b : Block c) (rd : Reg) (pos : BitVec 16), b.faulted = false →
    encode (.set rd pos) = 0x90000000#32 ||| placed rd 26 ||| pos.setWidth 32 ∧
    (pos.toNat < c.N → ∃ b', exec (.set rd pos) ⟨c, b⟩ = .next ⟨c, b'⟩ ∧
      (∀ i : Fin c.W, (b'.readReg rd)[i] =
        if i.val = c.W - 1 - pos.toNat / c.S then (b.readReg rd)[i] ||| (1#c.S <<< (pos.toNat % c.S))
        else (b.readReg rd)[i]) ∧
      b.KeepsOthers b' rd ∧ b.CompletesWith b' 0) ∧
    (c.N ≤ pos.toNat → ∃ b', exec (.set rd pos) ⟨c, b⟩ = .next ⟨c, b'⟩ ∧ b.FaultEntry b' b.cmd 2) ∧
    IllegalWhen c fun w => opField w = 0x9 ∧ (rs1Field w ≠ 0 ∨ rs2Field w ≠ 0 ∨ zeroField w ≠ 0)

/-- R154: UNSET ANDs the complement of the one-hot word into word `W - 1 - pos / S` and writes no other word; with
`pos >= N` it raises POS_RANGE. -/
def Obligations.UnsetWritesOneBitToZero : Prop :=
  ∀ (c : Config) (b : Block c) (rd : Reg) (pos : BitVec 16), b.faulted = false →
    encode (.unset rd pos) = 0xA0000000#32 ||| placed rd 26 ||| pos.setWidth 32 ∧
    (pos.toNat < c.N → ∃ b', exec (.unset rd pos) ⟨c, b⟩ = .next ⟨c, b'⟩ ∧
      (∀ i : Fin c.W, (b'.readReg rd)[i] =
        if i.val = c.W - 1 - pos.toNat / c.S then (b.readReg rd)[i] &&& ~~~(1#c.S <<< (pos.toNat % c.S))
        else (b.readReg rd)[i]) ∧
      b.KeepsOthers b' rd ∧ b.CompletesWith b' 0) ∧
    (c.N ≤ pos.toNat → ∃ b', exec (.unset rd pos) ⟨c, b⟩ = .next ⟨c, b'⟩ ∧ b.FaultEntry b' b.cmd 2) ∧
    IllegalWhen c fun w => opField w = 0xA ∧ (rs1Field w ≠ 0 ∨ rs2Field w ≠ 0 ∨ zeroField w ≠ 0)

/-- R156: after SET, TEST of the position answers 1 and every other bit is unchanged, `PHYS` is ORed with `2^pos`; after
UNSET it answers 0, every other bit is unchanged and bit `pos` of `PHYS` is cleared (closed form marked derived by the
spec). -/
def Obligations.SetAndUnsetAgreeWithTest : Prop :=
  ∀ (c : Config) (b : Block c) (rd : Reg) (pos : BitVec 16), b.faulted = false → pos.toNat < c.N →
    (∃ b' b'', exec (.set rd pos) ⟨c, b⟩ = .next ⟨c, b'⟩ ∧ exec (.test rd pos) ⟨c, b'⟩ = .next ⟨c, b''⟩ ∧
      b'.CompletesWith b'' 1 ∧ phys (b'.readReg rd) = phys (b.readReg rd) ||| 2 ^ pos.toNat ∧
      ∀ p, p < c.W * c.S → p ≠ pos.toNat → bitAt (b'.readReg rd) p = bitAt (b.readReg rd) p) ∧
    (∃ b' b'', exec (.unset rd pos) ⟨c, b⟩ = .next ⟨c, b'⟩ ∧ exec (.test rd pos) ⟨c, b'⟩ = .next ⟨c, b''⟩ ∧
      b'.CompletesWith b'' 0 ∧ phys (b'.readReg rd) = phys (b.readReg rd) &&& (2 ^ (c.W * c.S) - 1 - 2 ^ pos.toNat) ∧
      ∀ p, p < c.W * c.S → p ≠ pos.toNat → bitAt (b'.readReg rd) p = bitAt (b.readReg rd) p)

/-- R157: SET twice leaves the registers of SET once, and so does UNSET (marked derived by the spec). -/
def Obligations.SetAndUnsetAreIdempotent : Prop :=
  ∀ (c : Config) (b : Block c) (rd : Reg) (pos : BitVec 16), b.faulted = false → pos.toNat < c.N →
    (∃ b₁ b₂, exec (.set rd pos) ⟨c, b⟩ = .next ⟨c, b₁⟩ ∧ exec (.set rd pos) ⟨c, b₁⟩ = .next ⟨c, b₂⟩ ∧
      b₂.regs = b₁.regs) ∧
    ∃ b₁ b₂, exec (.unset rd pos) ⟨c, b⟩ = .next ⟨c, b₁⟩ ∧ exec (.unset rd pos) ⟨c, b₁⟩ = .next ⟨c, b₂⟩ ∧
      b₂.regs = b₁.regs

/-- R158: SET then UNSET leaves the bit 0 and every other bit unchanged, so the value is restored exactly when the bit
was 0; UNSET then SET leaves it 1 (marked derived by the spec; conflict C5). -/
def Obligations.SetThenUnsetClearsTheBit : Prop :=
  ∀ (c : Config) (b : Block c) (rd : Reg) (pos : BitVec 16), b.faulted = false → pos.toNat < c.N →
    (∃ b₁ b₂, exec (.set rd pos) ⟨c, b⟩ = .next ⟨c, b₁⟩ ∧ exec (.unset rd pos) ⟨c, b₁⟩ = .next ⟨c, b₂⟩ ∧
      bitAt (b₂.readReg rd) pos.toNat = false ∧
      (∀ p, p < c.W * c.S → p ≠ pos.toNat → bitAt (b₂.readReg rd) p = bitAt (b.readReg rd) p) ∧
      (b₂.readReg rd = b.readReg rd ↔ bitAt (b.readReg rd) pos.toNat = false)) ∧
    ∃ b₁ b₂, exec (.unset rd pos) ⟨c, b⟩ = .next ⟨c, b₁⟩ ∧ exec (.set rd pos) ⟨c, b₁⟩ = .next ⟨c, b₂⟩ ∧
      bitAt (b₂.readReg rd) pos.toNat = true

/-! ### The whole machine -/

/-- The table after R25, R27, R28: the frame of every command. Whatever `exec` answers, only the command's destination
register may change, the ports are untouched, one response is added, and FSTAT and FCMD stay as they were unless the
command took a fault; in a faulted block nothing changes but that one response (R176). The model's own are: the ports and
the responses as fields of State (log entries 3, 4 and 5), and that the check of the faulted state stands inside each
meaning, so that `exec` says what a faulted block does (log entry 9, DEDUCED). -/
def Obligations.CommandsWriteOnlyTheirDestination : Prop :=
  ∀ (i : Instr) (c : Config) (b b' : Block c), exec i ⟨c, b⟩ = .next ⟨c, b'⟩ →
    (∀ r : Reg, destOf i ≠ some r → b'.readReg r = b.readReg r) ∧
    b'.cmd = b.cmd ∧ b'.din = b.din ∧ b'.queue = b.queue ∧ (∃ r, b'.rsps = b.rsps ++ [r]) ∧
    ((b'.fstat = b.fstat ∧ b'.fcmd = b.fcmd) ∨ (b.faulted = false ∧ ∃ code, b.FaultEntry b' b.cmd code)) ∧
    (b.faulted = true → b.TurnedAway b')

/-- R155, R160: on completion TEST, SET and UNSET leave every padding bit, and every stored bit but the one named, as it
was (marked derived by the spec; that they do not depend on the padding bits is PaddingIsNeverVisible). -/
def Obligations.BitCommandsNeverTouchPadding : Prop :=
  ∀ (i : Instr) (pos : BitVec 16) (c : Config) (b : Block c), positionOf i = some pos → b.faulted = false →
    pos.toNat < c.N →
    ∃ b', exec i ⟨c, b⟩ = .next ⟨c, b'⟩ ∧
      ∀ (r : Reg) (p : Nat), p < c.W * c.S → (p ≠ pos.toNat ∨ destOf i ≠ some r) →
        bitAt (b'.readReg r) p = bitAt (b.readReg r) p

/-- R28, R29: FSTAT and FCMD are written only by fault entry and by reset: a step that changes either was a `rst`, or
took a running block into the faulted state with this command's word in FCMD. -/
def Obligations.StatusIsWrittenOnlyByFaultOrReset : Prop :=
  ∀ (c : Config) (b b' : Block c), step ⟨c, b⟩ = .next ⟨c, b'⟩ → (b'.fstat ≠ b.fstat ∨ b'.fcmd ≠ b.fcmd) →
    (∃ rest, b.queue = .rst :: rest ∧ b'.fstat = 0 ∧ b'.fcmd = 0) ∨
    (∃ w d rest, b.queue = .command w d :: rest ∧ b.faulted = false ∧ b'.faulted = true ∧ b'.fcmd = w ∧
      (b'.cause = 1 ∨ b'.cause = 2))

/-- R28, R29, R171: every step keeps the latch legal: no fault and all zero, or cause 1 with a word in FCMD that spells
no command for the block, or cause 2 with a TEST, SET or UNSET in FCMD whose position is at or above `N`. -/
def Obligations.StepKeepsTheLatchLegal : Prop :=
  ∀ (c : Config) (b b' : Block c), b.LatchLegal → step ⟨c, b⟩ = .next ⟨c, b'⟩ → b'.LatchLegal

/-- R33: the latch is legal after reset, in every configuration and in the model's reset state. -/
def Obligations.ResetLatchIsLegal : Prop :=
  (∀ c : Config, (Block.reset c).LatchLegal) ∧ State.reset.block.LatchLegal

/-- R25: two blocks that differ in padding bits only answer the same over any number of steps, and still differ in
padding bits only: no command lets the host see a padding bit (marked derived by the spec). -/
def Obligations.PaddingIsNeverVisible : Prop :=
  ∀ (c : Config) (a b : Block c) (k : Nat), a.SameLogically b →
    ∃ a' b', runSteps k ⟨c, a⟩ = .next ⟨c, a'⟩ ∧ runSteps k ⟨c, b⟩ = .next ⟨c, b'⟩ ∧ a'.SameLogically b'
end

