-- ==== Sys2Proof/Laws/State.lean ====
section
/-! SUPPORT. Laws/State.lean: one lemma per field of the block per update, so that no proof unfolds a record update. -/

namespace Sys2Proof.Machine

variable {c : Config} (b : Block c)

@[simp] theorem Block.writeReg_regs (r : Reg) (v : Vec c) : (b.writeReg r v).regs = b.regs.set r v := rfl
@[simp] theorem Block.writeReg_fstat (r : Reg) (v : Vec c) : (b.writeReg r v).fstat = b.fstat := rfl
@[simp] theorem Block.writeReg_fcmd (r : Reg) (v : Vec c) : (b.writeReg r v).fcmd = b.fcmd := rfl
@[simp] theorem Block.writeReg_cmd (r : Reg) (v : Vec c) : (b.writeReg r v).cmd = b.cmd := rfl
@[simp] theorem Block.writeReg_din (r : Reg) (v : Vec c) : (b.writeReg r v).din = b.din := rfl
@[simp] theorem Block.writeReg_queue (r : Reg) (v : Vec c) : (b.writeReg r v).queue = b.queue := rfl
@[simp] theorem Block.writeReg_rsps (r : Reg) (v : Vec c) : (b.writeReg r v).rsps = b.rsps := rfl

@[simp] theorem Block.respond_regs (d : BitVec 16) : (b.respond d).regs = b.regs := rfl
@[simp] theorem Block.respond_fstat (d : BitVec 16) : (b.respond d).fstat = b.fstat := rfl
@[simp] theorem Block.respond_fcmd (d : BitVec 16) : (b.respond d).fcmd = b.fcmd := rfl
@[simp] theorem Block.respond_cmd (d : BitVec 16) : (b.respond d).cmd = b.cmd := rfl
@[simp] theorem Block.respond_din (d : BitVec 16) : (b.respond d).din = b.din := rfl
@[simp] theorem Block.respond_queue (d : BitVec 16) : (b.respond d).queue = b.queue := rfl
@[simp] theorem Block.respond_rsps (d : BitVec 16) : (b.respond d).rsps = b.rsps ++ [{ fault := false, cause := 0, data := d }] := rfl

@[simp] theorem Block.takeFault_regs (k : Cause) : (b.takeFault k).regs = b.regs := rfl
@[simp] theorem Block.takeFault_fstat (k : Cause) : (b.takeFault k).fstat = packFstat true (causeCode k) := rfl
@[simp] theorem Block.takeFault_fcmd (k : Cause) : (b.takeFault k).fcmd = b.cmd := rfl
@[simp] theorem Block.takeFault_cmd (k : Cause) : (b.takeFault k).cmd = b.cmd := rfl
@[simp] theorem Block.takeFault_din (k : Cause) : (b.takeFault k).din = b.din := rfl
@[simp] theorem Block.takeFault_queue (k : Cause) : (b.takeFault k).queue = b.queue := rfl
@[simp] theorem Block.takeFault_rsps (k : Cause) : (b.takeFault k).rsps = b.rsps ++ [{ fault := true, cause := causeCode k, data := 0 }] := rfl

@[simp] theorem Block.answerFaulted_regs : (b.answerFaulted).regs = b.regs := rfl
@[simp] theorem Block.answerFaulted_fstat : (b.answerFaulted).fstat = b.fstat := rfl
@[simp] theorem Block.answerFaulted_fcmd : (b.answerFaulted).fcmd = b.fcmd := rfl
@[simp] theorem Block.answerFaulted_cmd : (b.answerFaulted).cmd = b.cmd := rfl
@[simp] theorem Block.answerFaulted_din : (b.answerFaulted).din = b.din := rfl
@[simp] theorem Block.answerFaulted_queue : (b.answerFaulted).queue = b.queue := rfl
@[simp] theorem Block.answerFaulted_rsps : (b.answerFaulted).rsps = b.rsps ++ [{ fault := true, cause := b.cause, data := 0 }] := rfl

@[simp] theorem Block.applyReset_regs : (b.applyReset).regs = Vector.replicate 4 (zeroVec c) := rfl
@[simp] theorem Block.applyReset_fstat : (b.applyReset).fstat = 0 := rfl
@[simp] theorem Block.applyReset_fcmd : (b.applyReset).fcmd = 0 := rfl
@[simp] theorem Block.applyReset_cmd : (b.applyReset).cmd = b.cmd := rfl
@[simp] theorem Block.applyReset_din : (b.applyReset).din = b.din := rfl
@[simp] theorem Block.applyReset_queue : (b.applyReset).queue = b.queue := rfl
@[simp] theorem Block.applyReset_rsps : (b.applyReset).rsps = b.rsps := rfl

@[simp] theorem Block.accept_regs (w : BitVec 32) (d : BitVec (c.W * c.S)) (q : List (HostInput c)) : (b.accept w d q).regs = b.regs := rfl
@[simp] theorem Block.accept_fstat (w : BitVec 32) (d : BitVec (c.W * c.S)) (q : List (HostInput c)) : (b.accept w d q).fstat = b.fstat := rfl
@[simp] theorem Block.accept_fcmd (w : BitVec 32) (d : BitVec (c.W * c.S)) (q : List (HostInput c)) : (b.accept w d q).fcmd = b.fcmd := rfl
@[simp] theorem Block.accept_cmd (w : BitVec 32) (d : BitVec (c.W * c.S)) (q : List (HostInput c)) : (b.accept w d q).cmd = w := rfl
@[simp] theorem Block.accept_din (w : BitVec 32) (d : BitVec (c.W * c.S)) (q : List (HostInput c)) : (b.accept w d q).din = d := rfl
@[simp] theorem Block.accept_queue (w : BitVec 32) (d : BitVec (c.W * c.S)) (q : List (HostInput c)) : (b.accept w d q).queue = q := rfl
@[simp] theorem Block.accept_rsps (w : BitVec 32) (d : BitVec (c.W * c.S)) (q : List (HostInput c)) : (b.accept w d q).rsps = b.rsps := rfl

@[simp] theorem Block.issue_regs (w : BitVec 32) (d : BitVec (c.W * c.S)) : (b.issue w d).regs = b.regs := rfl
@[simp] theorem Block.issue_fstat (w : BitVec 32) (d : BitVec (c.W * c.S)) : (b.issue w d).fstat = b.fstat := rfl
@[simp] theorem Block.issue_fcmd (w : BitVec 32) (d : BitVec (c.W * c.S)) : (b.issue w d).fcmd = b.fcmd := rfl
@[simp] theorem Block.issue_cmd (w : BitVec 32) (d : BitVec (c.W * c.S)) : (b.issue w d).cmd = b.cmd := rfl
@[simp] theorem Block.issue_din (w : BitVec 32) (d : BitVec (c.W * c.S)) : (b.issue w d).din = b.din := rfl
@[simp] theorem Block.issue_queue (w : BitVec 32) (d : BitVec (c.W * c.S)) : (b.issue w d).queue = .command w d :: b.queue := rfl
@[simp] theorem Block.issue_rsps (w : BitVec 32) (d : BitVec (c.W * c.S)) : (b.issue w d).rsps = b.rsps := rfl

@[simp] theorem Block.reset_regs : (Block.reset c).regs = Vector.replicate 4 (zeroVec c) := rfl
@[simp] theorem Block.reset_fstat : (Block.reset c).fstat = 0 := rfl
@[simp] theorem Block.reset_fcmd : (Block.reset c).fcmd = 0 := rfl
@[simp] theorem Block.reset_cmd : (Block.reset c).cmd = 0 := rfl
@[simp] theorem Block.reset_din : (Block.reset c).din = 0 := rfl
@[simp] theorem Block.reset_queue : (Block.reset c).queue = [] := rfl
@[simp] theorem Block.reset_rsps : (Block.reset c).rsps = [] := rfl

@[simp] theorem State.resetFor_cfg : (State.resetFor c).cfg = c := rfl
@[simp] theorem State.resetFor_block : (State.resetFor c).block = Block.reset c := rfl

end Sys2Proof.Machine
end

