-- ==== Sys2Proof/Laws/Ops.lean ====
section
/-! SUPPORT. Laws/Ops.lean: for each shared operation, everything it can do. -/

namespace Sys2Proof.Machine

variable {c : Config} (b : Block c)

/-! ### Registers -/

theorem Block.readReg_of_regs_eq {b b' : Block c} (h : b'.regs = b.regs) (r : Reg) : b'.readReg r = b.readReg r := by
  simp [Block.readReg, h]

@[simp] theorem Block.readReg_writeReg_self (r : Reg) (v : Vec c) : (b.writeReg r v).readReg r = v := by
  simp [Block.readReg]

theorem Block.readReg_writeReg_ne {r r' : Reg} (h : r ≠ r') (v : Vec c) : (b.writeReg r' v).readReg r = b.readReg r := by
  have : ¬ (r'.val = r.val) := fun e => h (Fin.ext e.symm)
  simp [Block.readReg, this]

@[simp] theorem Block.readReg_respond (d : BitVec 16) (r : Reg) : (b.respond d).readReg r = b.readReg r := rfl
@[simp] theorem Block.readReg_takeFault (k : Cause) (r : Reg) : (b.takeFault k).readReg r = b.readReg r := rfl
@[simp] theorem Block.readReg_answerFaulted (r : Reg) : b.answerFaulted.readReg r = b.readReg r := rfl
@[simp] theorem Block.readReg_accept (w : BitVec 32) (d : BitVec (c.W * c.S)) (q : List (HostInput c)) (r : Reg) :
    (b.accept w d q).readReg r = b.readReg r := rfl
@[simp] theorem Block.readReg_issue (w : BitVec 32) (d : BitVec (c.W * c.S)) (r : Reg) :
    (b.issue w d).readReg r = b.readReg r := rfl

theorem Block.readReg_applyReset (r : Reg) : b.applyReset.readReg r = zeroVec c := by
  simp [Block.readReg]

theorem Block.readReg_reset (r : Reg) : (Block.reset c).readReg r = zeroVec c := by
  simp [Block.readReg]

/-! ### FSTAT -/

@[simp] theorem packFstat_faulted (f : Bool) (k : BitVec 3) : (packFstat f k).getLsbD 0 = f := by
  cases f <;> revert k <;> decide

@[simp] theorem packFstat_cause (f : Bool) (k : BitVec 3) : (packFstat f k).extractLsb' 1 3 = k := by
  cases f <;> revert k <;> decide

@[simp] theorem Block.faulted_takeFault (k : Cause) : (b.takeFault k).faulted = true := by simp [Block.faulted]
@[simp] theorem Block.cause_takeFault (k : Cause) : (b.takeFault k).cause = causeCode k := by simp [Block.cause]
@[simp] theorem Block.faulted_respond (d : BitVec 16) : (b.respond d).faulted = b.faulted := rfl
@[simp] theorem Block.cause_respond (d : BitVec 16) : (b.respond d).cause = b.cause := rfl
@[simp] theorem Block.faulted_writeReg (r : Reg) (v : Vec c) : (b.writeReg r v).faulted = b.faulted := rfl
@[simp] theorem Block.cause_writeReg (r : Reg) (v : Vec c) : (b.writeReg r v).cause = b.cause := rfl
@[simp] theorem Block.faulted_answerFaulted : b.answerFaulted.faulted = b.faulted := rfl
@[simp] theorem Block.cause_answerFaulted : b.answerFaulted.cause = b.cause := rfl
@[simp] theorem Block.faulted_accept (w : BitVec 32) (d : BitVec (c.W * c.S)) (q : List (HostInput c)) :
    (b.accept w d q).faulted = b.faulted := rfl
@[simp] theorem Block.cause_accept (w : BitVec 32) (d : BitVec (c.W * c.S)) (q : List (HostInput c)) :
    (b.accept w d q).cause = b.cause := rfl
@[simp] theorem Block.faulted_issue (w : BitVec 32) (d : BitVec (c.W * c.S)) : (b.issue w d).faulted = b.faulted := rfl
@[simp] theorem Block.cause_issue (w : BitVec 32) (d : BitVec (c.W * c.S)) : (b.issue w d).cause = b.cause := rfl
@[simp] theorem Block.faulted_applyReset : b.applyReset.faulted = false := by simp [Block.faulted]
@[simp] theorem Block.faulted_reset : (Block.reset c).faulted = false := by simp [Block.faulted]

/-! ### Running a rule -/

theorem Block.unlessFaulted_running {b : Block c} (h : b.faulted = false) (rule : Block c → Block c) :
    b.unlessFaulted rule = rule b := by
  simp [Block.unlessFaulted, h]

theorem Block.unlessFaulted_faulted {b : Block c} (h : b.faulted = true) (rule : Block c → Block c) :
    b.unlessFaulted rule = b.answerFaulted := by
  simp [Block.unlessFaulted, h]

/-- All a decoded command can do: turned away in the faulted state, its rule otherwise. -/
theorem State.perform_cases (s : State) (rule : Block s.cfg → Block s.cfg) :
    (s.block.faulted = true ∧ s.perform rule = .next ⟨s.cfg, s.block.answerFaulted⟩) ∨
    (s.block.faulted = false ∧ s.perform rule = .next ⟨s.cfg, rule s.block⟩) := by
  cases h : s.block.faulted
  · exact .inr ⟨rfl, by rw [State.perform, Block.unlessFaulted_running h]⟩
  · exact .inl ⟨rfl, by rw [State.perform, Block.unlessFaulted_faulted h]⟩

theorem State.perform_running {b : Block c} (h : b.faulted = false) (rule : Block c → Block c) :
    State.perform ⟨c, b⟩ rule = .next ⟨c, rule b⟩ := by
  simp [State.perform, Block.unlessFaulted, h]

theorem State.perform_faulted {b : Block c} (h : b.faulted = true) (rule : Block c → Block c) :
    State.perform ⟨c, b⟩ rule = .next ⟨c, b.answerFaulted⟩ := by
  simp [State.perform, Block.unlessFaulted, h]

theorem Block.ifInRange_inside {pos : BitVec 16} (h : pos.toNat < c.N) (rule : Block c → Block c) :
    b.ifInRange pos rule = rule b := by
  simp [Block.ifInRange, h]

theorem Block.ifInRange_outside {pos : BitVec 16} (h : c.N ≤ pos.toNat) (rule : Block c → Block c) :
    b.ifInRange pos rule = b.takeFault .posRange := by
  simp [Block.ifInRange, Nat.not_lt.mpr h]

/-! ### Taking an input -/

/-- What a step finds: nothing, a reset, or the host's next command at the port. -/
theorem Block.nextInput_cases :
    (b.queue = [] ∧ b.nextInput = .idle) ∨
    (∃ q, b.queue = .rst :: q ∧ b.nextInput = .reset { b.applyReset with queue := q }) ∨
    (∃ w d q, b.queue = .command w d :: q ∧ b.nextInput = .command (b.accept w d q)) := by
  unfold Block.nextInput
  split
  · next h => exact .inl ⟨h, rfl⟩
  · next q h => exact .inr (.inl ⟨q, h, rfl⟩)
  · next w d q h => exact .inr (.inr ⟨w, d, q, h, rfl⟩)

@[simp] theorem Block.nextInput_issue (w : BitVec 32) (d : BitVec (c.W * c.S)) :
    (b.issue w d).nextInput = .command (b.accept w d b.queue) := rfl

theorem step_idle {b : Block c} (h : b.queue = []) : step ⟨c, b⟩ = .next ⟨c, b⟩ := by
  simp [step, Block.nextInput, h]

theorem step_rst {b : Block c} {q : List (HostInput c)} (h : b.queue = .rst :: q) :
    step ⟨c, b⟩ = .next ⟨c, { b.applyReset with queue := q }⟩ := by
  simp [step, Block.nextInput, h]

/-- A step that takes an illegal command word. -/
theorem step_illegal {b : Block c} {w : BitVec 32} {d : BitVec (c.W * c.S)} {q : List (HostInput c)}
    {why : IllegalReason} (h : b.queue = .command w d :: q) (hd : decode c w = .illegal why) :
    step ⟨c, b⟩ = State.performIllegal ⟨c, b.accept w d q⟩ := by
  simp [step, Block.nextInput, h, hd]

/-- A step that takes a command that decodes. -/
theorem step_command {b : Block c} {w : BitVec 32} {d : BitVec (c.W * c.S)} {q : List (HostInput c)} {i : Instr}
    (h : b.queue = .command w d :: q) (hd : decode c w = .instr i) : step ⟨c, b⟩ = exec i ⟨c, b.accept w d q⟩ := by
  simp [step, Block.nextInput, h, hd]

end Sys2Proof.Machine
end

