-- ==== Sys2Proof/Laws/PerInstr.lean ====
section
/-! SUPPORT. Laws/PerInstr.lean: the family EncodesItsRow: the word of every command matches its own row of the match and
mask table (30_encoding.md R66), for every operand. -/

namespace Sys2Proof.Laws.EncodesItsRow

/-- The row of R66 that stands for a command. -/
def rowOf : Instr → OpcodeRow
  | .clr _ => ⟨.clr, 0x10000000#32, 0xF3FFFFFF#32⟩
  | .ldi _ => ⟨.ldi, 0x20000000#32, 0xF3FFFFFF#32⟩
  | .ldv _ => ⟨.ldv, 0x30000000#32, 0xF3FFFFFF#32⟩
  | .shl _ _ _ => ⟨.shl, 0x40000000#32, 0xF0FF0000#32⟩
  | .and _ _ _ => ⟨.and, 0x50000000#32, 0xF03FFFFF#32⟩
  | .dec _ => ⟨.dec, 0x60000000#32, 0xF3FFFFFF#32⟩
  | .popc _ => ⟨.popc, 0x70000000#32, 0xFCFFFFFF#32⟩
  | .test _ _ => ⟨.test, 0x80000000#32, 0xFCFF0000#32⟩
  | .set _ _ => ⟨.set, 0x90000000#32, 0xF3FF0000#32⟩
  | .unset _ _ => ⟨.unset, 0xA0000000#32, 0xF3FF0000#32⟩

/-- The command's word matches its row, which is one of the table's. -/
def Statement (i : Instr) : Prop := rowOf i ∈ opcodeRows ∧ (rowOf i).holds (encode i) = true

/-- A mask over a word laid out in fields acts field by field. -/
theorem commandWord_and (op op' : BitVec 4) (rd rs1 rs2 rd' rs1' rs2' : BitVec 2) (z z' : BitVec 6) (p p' : BitVec 16) :
    commandWord op rd rs1 rs2 z p &&& commandWord op' rd' rs1' rs2' z' p' =
      commandWord (op &&& op') (rd &&& rd') (rs1 &&& rs1') (rs2 &&& rs2') (z &&& z') (p &&& p') := by
  have fields : (op ++ rd ++ rs1 ++ rs2 ++ z ++ p : BitVec (4 + 2 + 2 + 2 + 6 + 16)) &&&
      (op' ++ rd' ++ rs1' ++ rs2' ++ z' ++ p') =
      (op &&& op') ++ (rd &&& rd') ++ (rs1 &&& rs1') ++ (rs2 &&& rs2') ++ (z &&& z') ++ (p &&& p') := by
    simp only [BitVec.and_append]
  exact fields

/-- The must-be-zero test of a row, field by field: the mask keeps the opcode and every field it covers with ones. -/
theorem holds_commandWord (m : Mnemonic) (op op' : BitVec 4) (rd rs1 rs2 rd' rs1' rs2' : BitVec 2) (z : BitVec 6)
    (p p' : BitVec 16) (pattern mask : BitVec 32)
    (hm : mask = commandWord 0xF rd' rs1' rs2' 0x3F p') (hp : pattern = commandWord op' 0 0 0 0 0)
    (h : op = op' ∧ rd &&& rd' = 0 ∧ rs1 &&& rs1' = 0 ∧ rs2 &&& rs2' = 0 ∧ z = 0 ∧ p &&& p' = 0) :
    (OpcodeRow.mk m pattern mask).holds (commandWord op rd rs1 rs2 z p) = true := by
  obtain ⟨rfl, h1, h2, h3, rfl, h4⟩ := h
  have hop : op &&& 0xF#4 = op := BitVec.and_allOnes
  simp [OpcodeRow.holds, hm, hp, commandWord_and, h1, h2, h3, h4, hop]

theorem clr (rd : Reg) : Statement (.clr rd) :=
  ⟨by simp [rowOf, opcodeRows], holds_commandWord _ _ 0x1 _ _ _ 0 3 3 _ _ 0xFFFF _ _ rfl rfl (by simp)⟩

theorem ldi (rd : Reg) : Statement (.ldi rd) :=
  ⟨by simp [rowOf, opcodeRows], holds_commandWord _ _ 0x2 _ _ _ 0 3 3 _ _ 0xFFFF _ _ rfl rfl (by simp)⟩

theorem ldv (rd : Reg) : Statement (.ldv rd) :=
  ⟨by simp [rowOf, opcodeRows], holds_commandWord _ _ 0x3 _ _ _ 0 3 3 _ _ 0xFFFF _ _ rfl rfl (by simp)⟩

theorem shl (rd rs1 : Reg) (pos : BitVec 16) : Statement (.shl rd rs1 pos) :=
  ⟨by simp [rowOf, opcodeRows], holds_commandWord _ _ 0x4 _ _ _ 0 0 3 _ _ 0 _ _ rfl rfl (by simp)⟩

theorem and (rd rs1 rs2 : Reg) : Statement (.and rd rs1 rs2) :=
  ⟨by simp [rowOf, opcodeRows], holds_commandWord _ _ 0x5 _ _ _ 0 0 0 _ _ 0xFFFF _ _ rfl rfl (by simp)⟩

theorem dec (rd : Reg) : Statement (.dec rd) :=
  ⟨by simp [rowOf, opcodeRows], holds_commandWord _ _ 0x6 _ _ _ 0 3 3 _ _ 0xFFFF _ _ rfl rfl (by simp)⟩

theorem popc (rs1 : Reg) : Statement (.popc rs1) :=
  ⟨by simp [rowOf, opcodeRows], holds_commandWord _ _ 0x7 _ _ _ 3 0 3 _ _ 0xFFFF _ _ rfl rfl (by simp)⟩

theorem test (rs1 : Reg) (pos : BitVec 16) : Statement (.test rs1 pos) :=
  ⟨by simp [rowOf, opcodeRows], holds_commandWord _ _ 0x8 _ _ _ 3 0 3 _ _ 0 _ _ rfl rfl (by simp)⟩

theorem set (rd : Reg) (pos : BitVec 16) : Statement (.set rd pos) :=
  ⟨by simp [rowOf, opcodeRows], holds_commandWord _ _ 0x9 _ _ _ 0 3 3 _ _ 0 _ _ rfl rfl (by simp)⟩

theorem unset (rd : Reg) (pos : BitVec 16) : Statement (.unset rd pos) :=
  ⟨by simp [rowOf, opcodeRows], holds_commandWord _ _ 0xA _ _ _ 0 3 3 _ _ 0 _ _ rfl rfl (by simp)⟩

end Sys2Proof.Laws.EncodesItsRow
end

