-- ==== Sys2Proof/Laws/Run.lean ====
section
/-! SUPPORT. Laws/Run.lean: what one more step of a run is, and that an outcome determines its block. -/

namespace Sys2Proof.Machine

@[simp] theorem runSteps_zero (s : State) : runSteps 0 s = .next s := rfl

/-- A run whose first step answers `s'` goes on from `s'`. -/
theorem runSteps_succ (k : Nat) {s s' : State} (h : step s = .next s') : runSteps (k + 1) s = runSteps k s' := by
  have first : Sys2Proof.core.step s = .next s' := h
  simp [runSteps, Host.Core.run, first]
  rfl

/-- Two blocks of one configuration that are the same next state are equal. -/
theorem next_block_inj {c : Config} {b b' : Block c}
    (h : (Host.Outcome.next ⟨c, b⟩ : Host.Outcome State Fault Refusal) = .next ⟨c, b'⟩) : b = b' := by
  injection h with h
  injection h with _ h

/-- A block whose next input is a command is one to which that command was issued. -/
theorem Block.eq_issue {c : Config} {b : Block c} {w : BitVec 32} {d : BitVec (c.W * c.S)} {q : List (HostInput c)}
    (h : b.queue = .command w d :: q) : b = ({ b with queue := q } : Block c).issue w d := by
  cases b
  simpa [Block.issue] using h

end Sys2Proof.Machine
end

