-- ==== Sys2Proof/Laws/Vectors.lean ====
section
/-! SUPPORT. Laws/Vectors.lean: for each operation on vectors, what every word of its result is. -/

namespace Sys2Proof.Machine

variable {c : Config}

@[simp] theorem zeroVec_word (i : Nat) (h : i < c.W) : (zeroVec c)[i] = 0 := by simp [zeroVec]

@[simp] theorem lastWordVec_word (x : Word c) (i : Nat) (h : i < c.W) :
    (lastWordVec x)[i] = if i = c.W - 1 then x else 0 := by
  simp [lastWordVec]

@[simp] theorem dinVec_word (din : BitVec (c.W * c.S)) (i : Nat) (h : i < c.W) : (dinVec din)[i] = dinWord c din i := by
  simp [dinVec]

@[simp] theorem shiftLeftVec_word (v : Vec c) (pos i : Nat) (h : i < c.W) :
    (shiftLeftVec v pos)[i] = shiftedWord v pos i := by
  simp [shiftLeftVec]

/-- The word of R100 in terms of any `upper` and `shift` equal to `pos / S` and `pos mod S`. -/
theorem shiftedWord_eq (v : Vec c) {pos upper shift : Nat} (i : Nat) (hu : pos / c.S = upper) (hs : pos % c.S = shift) :
    shiftedWord v pos i =
      if h : i + upper < c.W then
        if h' : shift ≠ 0 ∧ i + (upper + 1) < c.W then
          (v[i + upper] <<< shift) ||| (v[i + (upper + 1)]'h'.2 >>> (c.S - shift))
        else v[i + upper] <<< shift
      else 0 := by
  subst hu hs
  rfl

@[simp] theorem andVec_word (u v : Vec c) (i : Nat) (h : i < c.W) : (andVec u v)[i] = u[i] &&& v[i] := by
  simp [andVec]

theorem replaceWord_word (v : Vec c) (pos : Nat) (a : Word c) (i : Nat) (h : i < c.W) :
    (replaceWord v pos a)[i] = if wordIndexFor c pos = i then a else v[i] := by
  simp [replaceWord, Vector.getElem_set]

theorem setBitVec_word (v : Vec c) (pos i : Nat) (h : i < c.W) :
    (setBitVec v pos)[i] = if wordIndexFor c pos = i then v[i] ||| onehot c pos else v[i] := by
  rw [setBitVec, replaceWord_word]
  split <;> simp_all [selectWord]

theorem unsetBitVec_word (v : Vec c) (pos i : Nat) (h : i < c.W) :
    (unsetBitVec v pos)[i] = if wordIndexFor c pos = i then v[i] &&& ~~~(onehot c pos) else v[i] := by
  rw [unsetBitVec, replaceWord_word]
  split <;> simp_all [selectWord]

/-- The borrow chain below `k` leaves the words of index `k` and above alone. -/
theorem borrowFrom_word_above (v : Vec c) (k : Nat) (hk : k ≤ c.W) (i : Nat) (h : i < c.W) (hi : k ≤ i) :
    (borrowFrom v k hk)[i] = v[i] := by
  induction k generalizing v with
  | zero => rfl
  | succ k ih =>
    have : k ≠ i := by omega
    unfold borrowFrom
    split
    · simp [this]
    · rw [ih _ _ (by omega)]; simp [this]

/-- A chain that starts at a non-zero word changes that word only. -/
theorem borrowFrom_stops (v : Vec c) (k : Nat) (hk : k + 1 ≤ c.W) (h : v[k] ≠ 0) :
    borrowFrom v (k + 1) hk = v.set k (v[k] - 1) := by
  rw [borrowFrom, if_pos h]

/-- A chain that starts at a zero word wraps it and goes on. -/
theorem borrowFrom_goes_on (v : Vec c) (k : Nat) (hk : k + 1 ≤ c.W) (h : v[k] = 0) :
    borrowFrom v (k + 1) hk = borrowFrom (v.set k (BitVec.allOnes c.S)) k (Nat.le_of_succ_le hk) := by
  rw [borrowFrom, if_neg (not_not.mpr h)]

end Sys2Proof.Machine
end

