-- ==== Sys2Proof/Tests/Slice0.lean ====
section
/-! SUPPORT. Tests/Slice0.lean: the model's own tests, each about one word or one step, with results taken from the spec,
and a witness for the hypotheses of every statement that has some. -/

namespace Sys2Proof.Tests

open Sys2Proof.Machine

/-! ### The blocks of 95_test_vectors.md -/

def c1 : Config := ⟨1, 8, by decide, by decide, by decide⟩
def c2 : Config := ⟨2, 8, by decide, by decide, by decide⟩
def c9 : Config := ⟨9, 8, by decide, by decide, by decide⟩
def c10 : Config := ⟨10, 8, by decide, by decide, by decide⟩
def c16 : Config := ⟨16, 8, by decide, by decide, by decide⟩
def c20 : Config := ⟨20, 8, by decide, by decide, by decide⟩
def c40 : Config := ⟨40, 32, by decide, by decide, by decide⟩

/-- A vector from its words, most significant first. -/
def vecOf (c : Config) (ws : List Nat) : Vec c := Vector.ofFn fun i : Fin c.W => BitVec.ofNat c.S (ws.getD i 0)

/-- The block after reset with `v0` and `v1` loaded and a value on the data-in port. -/
def load (c : Config) (v0 v1 : List Nat) (din : Nat) : Block c :=
  { Block.reset c with
    regs := #v[vecOf c v0, vecOf c v1, zeroVec c, zeroVec c]
    din := BitVec.ofNat _ din }

/-- The words of a register in an outcome. -/
def wordsIn (o : Host.Outcome State Fault Refusal) (r : Reg) : List Nat :=
  match o with
  | .next s => (s.block.readReg r).toList.map BitVec.toNat
  | .fault _ => []
  | .refused _ => []

/-- FSTAT, FCMD and the responses in an outcome. -/
def statusIn (o : Host.Outcome State Fault Refusal) : Nat × Nat × List (Bool × Nat × Nat) :=
  match o with
  | .next s => (s.block.fstat.toNat, s.block.fcmd.toNat, s.block.rsps.map fun r => (r.fault, r.cause.toNat, r.data.toNat))
  | .fault _ => (0, 0, [])
  | .refused _ => (0, 0, [])

/-! ### Parameters and well-formedness -/

/-- The table at the head of 95_test_vectors.md: `(W, first)`. -/
theorem test_geometry : [c1, c2, c9, c10, c16, c20, c40].map (fun c => (c.W, c.first)) =
    [(1, 1), (1, 2), (2, 1), (2, 2), (2, 8), (3, 4), (2, 8)] := by decide

/-- R203: each bound is checked. -/
theorem test_config_refused : (Config.build 0 8).isSome = false ∧ (Config.build 65536 8).isSome = false ∧
    (Config.build 10 0).isSome = false ∧ (Config.build 65535 1).isSome = true := by decide

/-- R69: LDV is ill-formed where `W = 1`. -/
theorem test_ldv_ill_formed : (Instr.ldv 0).wellFormed c1 = false ∧ (Instr.ldv 0).wellFormed c9 = true := by decide

/-! ### Words, written out from R61 and R66: op, rd, rs1, rs2, zero, pos -/

theorem test_decode_clr : decode c1 0b00011100000000000000000000000000#32 = .instr (.clr 3) := by decide
theorem test_decode_ldi : decode c1 0b00101000000000000000000000000000#32 = .instr (.ldi 2) := by decide
theorem test_decode_ldv : decode c20 0b00110100000000000000000000000000#32 = .instr (.ldv 1) := by decide
theorem test_decode_shl : decode c1 0b01001101000000001111111111111110#32 = .instr (.shl 3 1 65534) := by decide
theorem test_decode_and : decode c1 0b01010110110000000000000000000000#32 = .instr (.and 1 2 3) := by decide
theorem test_decode_dec : decode c1 0b01101000000000000000000000000000#32 = .instr (.dec 2) := by decide
theorem test_decode_popc : decode c1 0b01110010000000000000000000000000#32 = .instr (.popc 2) := by decide
theorem test_decode_test : decode c1 0b10000011000000000000000000001010#32 = .instr (.test 3 10) := by decide
theorem test_decode_set : decode c1 0b10011100000000001000000000000001#32 = .instr (.set 3 0x8001) := by decide
theorem test_decode_unset : decode c1 0b10100100000000000000000000010011#32 = .instr (.unset 1 19) := by decide

/-- Section 2.7 of 95_test_vectors.md, its illegal words. -/
theorem test_decode_illegal :
    [0x00000000#32, 0xFFFFFFFF#32, 0x11000000#32, 0x10400000#32, 0x10010000#32, 0x10000001#32, 0x44400003#32, 0x44010003#32,
     0x58400001#32, 0x74000000#32, 0x8C000000#32, 0x91000000#32, 0xB0000000#32, 0xC0000000#32, 0xF0000000#32].all
      (fun w => match decode c20 w with | .illegal _ => true | .instr _ => false) = true := by decide

/-- R69: the LDV word in a block of one word. -/
theorem test_decode_ldv_one_word : decode c1 0x30000000#32 = .illegal .ldvInOneWordBlock := by decide

/-- Words of the programs of section 3: `AND v2, v1, v0`, `SHL v0, v0, 12`, `UNSET v2, 1`. -/
theorem test_encode : encode (.and 2 1 0) = 0x59000000#32 ∧ encode (.shl 0 0 12) = 0x4000000C#32 ∧
    encode (.unset 2 1) = 0xA8000001#32 := by decide

/-! ### Commands (sections 2.1 to 2.6 of 95_test_vectors.md) -/

theorem test_clr : wordsIn (exec (.clr 0) ⟨c10, load c10 [0xFF, 0xFF] [] 0⟩) 0 = [0, 0] := by decide
theorem test_ldi_ignores_upper_din : wordsIn (exec (.ldi 0) ⟨c10, load c10 [0xFF, 0xFF] [] 0xFFA9⟩) 0 = [0, 0xA9] := by decide
theorem test_ldi_stores_padding : wordsIn (exec (.ldi 0) ⟨c2, load c2 [] [] 0x07⟩) 0 = [0x07] := by decide
theorem test_ldv : wordsIn (exec (.ldv 1) ⟨c20, load c20 [] [] 0x0ABCDE⟩) 1 = [0x0A, 0xBC, 0xDE] := by decide
theorem test_ldv_one_word : statusIn (exec (.ldv 0) ⟨c1, load c1 [] [] 1⟩) = (3, 0, [(true, 1, 0)]) := by decide
theorem test_shl_crosses_words :
    wordsIn (exec (.shl 1 1 1) ⟨c20, load c20 [] [0x0A, 0xBC, 0xDE] 0⟩) 1 = [0x15, 0x79, 0xBC] := by decide
theorem test_shl_whole_word :
    wordsIn (exec (.shl 0 1 8) ⟨c20, load c20 [] [0x0A, 0xBC, 0xDE] 0⟩) 0 = [0xBC, 0xDE, 0x00] := by decide
theorem test_and : wordsIn (exec (.and 2 0 1) ⟨c10, load c10 [0x03, 0x0F] [0x01, 0xF5] 0⟩) 2 = [0x01, 0x05] := by decide
theorem test_and_keeps_padding : wordsIn (exec (.and 0 0 1) ⟨c10, load c10 [0xFF, 0xFF] [0xFC, 0x00] 0⟩) 0 = [0xFC, 0] := by
  decide
theorem test_dec_borrows : wordsIn (exec (.dec 0) ⟨c20, load c20 [0x10, 0, 0] [] 0⟩) 0 = [0x0F, 0xFF, 0xFF] := by decide
theorem test_dec_zero : wordsIn (exec (.dec 0) ⟨c9, load c9 [0, 0] [] 0⟩) 0 = [0xFF, 0xFF] := by decide
theorem test_popc_masks : statusIn (exec (.popc 1) ⟨c10, load c10 [] [0x05, 0x48] 0⟩) = (0, 0, [(false, 0, 3)]) := by decide
theorem test_popc_no_padding : statusIn (exec (.popc 0) ⟨c16, load c16 [0xFF, 0xFF] [] 0⟩) = (0, 0, [(false, 0, 16)]) := by
  decide
theorem test_test_bit : statusIn (exec (.test 0 15) ⟨c20, load c20 [0x0A, 0xBC, 0xDE] [] 0⟩) = (0, 0, [(false, 0, 1)]) := by
  decide
theorem test_test_out_of_range : statusIn (exec (.test 0 20) ⟨c20, load c20 [0xFF, 0, 0] [] 0⟩) = (5, 0, [(true, 2, 0)]) := by
  decide
theorem test_set : wordsIn (exec (.set 0 16) ⟨c20, load c20 [0x0A, 0xBC, 0xDE] [] 0⟩) 0 = [0x0B, 0xBC, 0xDE] := by decide
theorem test_set_out_of_range : wordsIn (exec (.set 0 20) ⟨c20, load c20 [0x0A, 0xBC, 0xDE] [] 0⟩) 0 = [0x0A, 0xBC, 0xDE] := by
  decide
theorem test_unset : wordsIn (exec (.unset 0 19) ⟨c20, load c20 [0x0A, 0xBC, 0xDE] [] 0⟩) 0 = [0x02, 0xBC, 0xDE] := by decide
theorem test_unset_out_of_range :
    wordsIn (exec (.unset 0 23) ⟨c20, load c20 [0xFF, 0xBC, 0xDE] [] 0⟩) 0 = [0xFF, 0xBC, 0xDE] := by decide

/-- The row `pos = 33` of the table for `N = 40`, `S = 32`. -/
theorem test_shl_wide_words : wordsIn (exec (.shl 0 0 33) ⟨c40, load c40 [0xAB, 0xCDEF0123] [] 0⟩) 0 = [0x9BDE0246, 0] := by
  decide

/-- E1: value and rendering, `01'01001000`. -/
theorem test_render : render (vecOf c10 [0x05, 0x48]) =
    [[false, true], [false, true, false, false, true, false, false, false]] ∧ val (vecOf c10 [0x05, 0x48]) = 328 := by decide

/-! ### Steps (section 2.8 of 95_test_vectors.md) -/

theorem test_step_pos_range : statusIn (step ⟨c10, (Block.reset c10).issue 0x8000000A#32 0⟩) =
    (5, 0x8000000A, [(true, 2, 0)]) := by decide
theorem test_step_illegal_first : statusIn (step ⟨c10, (Block.reset c10).issue 0x8001000A#32 0⟩) =
    (3, 0x8001000A, [(true, 1, 0)]) := by decide

/-- A block that took the POS_RANGE fault of section 2.8. -/
def faultedBlock : Block c10 := { load c10 [0x00, 0xFF] [] 0 with fstat := 0x5, fcmd := 0x8000000A#32 }

theorem test_step_while_faulted : statusIn (step ⟨c10, faultedBlock.issue 0xB0000000#32 0⟩) =
    (5, 0x8000000A, [(true, 2, 0)]) := by decide
theorem test_step_while_faulted_writes_nothing : wordsIn (step ⟨c10, faultedBlock.issue 0x10000000#32 0⟩) 0 = [0, 0xFF] := by
  decide
theorem test_step_rst : statusIn (step ⟨c10, { faultedBlock with queue := [.rst] }⟩) = (0, 0, []) ∧
    wordsIn (step ⟨c10, { faultedBlock with queue := [.rst] }⟩) 0 = [0, 0] := by decide
theorem test_step_idle : wordsIn (step ⟨c10, faultedBlock⟩) 0 = [0, 0xFF] := by decide

/-- The host's two questions, on `SET v3, 9`. -/
theorem test_table_word : decodeTableWord 32 0x9C000009 = some (.set 3 9) ∧
    wordsIn (step (State.reset.withFetchWord 32 0x9C000009)) 3 = [0, 2, 0] := by decide

/-! ### Witnesses: for each statement with hypotheses, a state and operands that meet them together. Where a statement
has several clauses, each clause has its own, at a boundary of its range. -/

/-- A running block, for every statement whose only hypothesis is that the block is not faulted. -/
theorem witness_running : (load c10 [0x00, 0xA9] [0x03, 0xFF] 0xFF01).faulted = false := by decide

theorem witness_parameters : ∃ c, Config.build 65535 1 = some c := ⟨_, rfl⟩
theorem witness_bit_positions : 23 < c20.W * c20.S ∧ 19 < c20.N ∧ ¬ 20 < c20.N := by decide
theorem witness_opcode_rows : (⟨.clr, 0x10000000#32, 0xF3FFFFFF#32⟩ : OpcodeRow) ∈ opcodeRows ∧
    (⟨.clr, 0x10000000#32, 0xF3FFFFFF#32⟩ : OpcodeRow).holds 0x1C000000#32 = true := by decide
theorem witness_well_formed : (Instr.ldv 3).wellFormed c9 = true ∧ decode c9 0x3C000000#32 = .instr (.ldv 3) := by decide
theorem witness_unmatched : ¬ spellsCommand 0xB0000000#32 ∧ ¬ spellsCommand 0x10000001#32 ∧
    ¬ spellsCommand 0x00FFFFFF#32 ∧ (Block.reset c10).faulted = false := by decide
theorem witness_word_counts : c1.W = 1 ∧ 1 < c9.W ∧ (Block.reset c1).faulted = false ∧ (Block.reset c9).faulted = false := by
  decide
theorem witness_step_runs : decode c10 0x44000003#32 = .instr (.shl 1 0 3) := by decide
theorem witness_checks_illegal : (Block.reset c1).faulted = false ∧ decode c1 0x30000000#32 = .illegal .ldvInOneWordBlock := by
  decide
theorem witness_checks_position : (Block.reset c10).faulted = false ∧ decode c10 0x8000000A#32 = .instr (.test 0 10) ∧
    positionOf (.test 0 10) = some 10 ∧ c10.N ≤ (10 : BitVec 16).toNat := by decide
theorem witness_checks_completes : (Block.reset c10).faulted = false ∧ decode c10 0x80000009#32 = .instr (.test 0 9) ∧
    positionOf (.test 0 9) = some 9 ∧ (9 : BitVec 16).toNat < c10.N := by decide
theorem witness_both_errors : opField 0x8001000A#32 = 0x8 ∧ zeroField 0x8001000A#32 ≠ 0 ∧
    c10.N ≤ (posField 0x8001000A#32).toNat ∧ (Block.reset c10).faulted = false ∧
    decode c10 0x8001000A#32 = .illegal .mustBeZero := by decide
theorem witness_illegal_in_range : (Block.reset c10).faulted = false ∧ decode c10 0x80010009#32 = .illegal .mustBeZero ∧
    (posField 0x80010009#32).toNat < c10.N := by decide
theorem witness_fault_entry : ∃ b', step ⟨c10, (Block.reset c10).issue 0x8000000A#32 0⟩ = .next ⟨c10, b'⟩ ∧
    (Block.reset c10).faulted = false ∧ decode c10 0x8000000A#32 = .instr (.test 0 10) ∧
    positionOf (.test 0 10) = some 10 ∧ c10.N ≤ (10 : BitVec 16).toNat ∧ b'.faulted = true ∧ b'.cause = 2 :=
  ⟨_, rfl, by decide, by decide, by decide, by decide, by decide, by decide⟩
theorem witness_illegal_entry : ∃ b', step ⟨c10, (Block.reset c10).issue 0xB0000000#32 0⟩ = .next ⟨c10, b'⟩ ∧
    (Block.reset c10).faulted = false ∧ decode c10 0xB0000000#32 = .illegal .reservedOpcode ∧ b'.faulted = true ∧
    b'.cause = 1 := ⟨_, rfl, by decide, by decide, by decide, by decide⟩
theorem witness_faulted : faultedBlock.faulted = true := by decide
theorem witness_faulted_run : (faultedBlock.issue 0x10000000#32 0).faulted = true ∧
    HostInput.rst ∉ (faultedBlock.issue 0x10000000#32 0).queue := by decide
theorem witness_reset_states : State.reset = State.resetFor Config.reference := rfl
theorem witness_rst_queued : ({ faultedBlock with queue := [.rst] } : Block c10).queue = .rst :: [] := rfl
theorem witness_inputs : (Block.reset c10).queue = [] ∧ ((Block.reset c10).issue 0x60000000#32 0).queue =
    .command 0x60000000#32 0 :: [] := by decide
theorem witness_later_inputs : ∃ b', step ⟨c10, { Block.reset c10 with queue := .command 0x60000000#32 0 :: [.rst] }⟩ =
    .next ⟨c10, b'⟩ := ⟨_, rfl⟩
theorem witness_ldv_then_test : (load c10 [] [] 0xFF01).faulted = false ∧ 1 < c10.W ∧ (9 : BitVec 16).toNat < c10.N := by
  decide
theorem witness_position_boundary : (9 : BitVec 16).toNat < c10.N ∧ c10.N ≤ (10 : BitVec 16).toNat ∧
    (load c10 [0x01, 0x48] [] 0).faulted = false := by decide
theorem witness_large_shifts : c10.N ≤ (10 : BitVec 16).toNat ∧ (15 : BitVec 16).toNat < c10.W * c10.S ∧
    c10.W * c10.S ≤ (16 : BitVec 16).toNat ∧ (load c10 [0x03, 0xFF] [] 0).faulted = false := by decide
theorem witness_two_registers : (0 : Reg) ≠ 1 ∧ (load c10 [0x03, 0xFF] [] 0).faulted = false := by decide
theorem witness_shift_sum : (3 : BitVec 16).toNat + (7 : BitVec 16).toNat = (10 : BitVec 16).toNat ∧
    (load c10 [0x03, 0xFF] [] 0).faulted = false := by decide
theorem witness_borrow_stops : ((load c20 [0x10, 0, 0] [] 0).readReg 0)[0]'c20.W_pos ≠ 0 ∧
    (∀ i : Fin c20.W, 0 < i.val → ((load c20 [0x10, 0, 0] [] 0).readReg 0)[i] = 0) ∧
    (load c20 [0x10, 0, 0] [] 0).faulted = false := by decide
theorem witness_all_words_zero : (∀ i : Fin c9.W, ((load c9 [0, 0] [] 0).readReg 0)[i] = 0) ∧
    (load c9 [0, 0] [] 0).faulted = false := by decide
theorem witness_period : (2 ^ c1.N ∣ 2) ∧ (Block.reset c1).faulted = false := by decide
theorem witness_padding : c10.first < c10.S ∧ (Block.reset c10).faulted = false := by decide
theorem witness_frame_completes : ∃ b', exec (.set 3 9) ⟨c10, load c10 [1, 2] [3, 4] 5⟩ = .next ⟨c10, b'⟩ ∧
    b'.faulted = false := ⟨_, rfl, by decide⟩
theorem witness_frame_faults : ∃ b', exec (.set 3 10) ⟨c10, load c10 [1, 2] [3, 4] 5⟩ = .next ⟨c10, b'⟩ ∧
    b'.faulted = true := ⟨_, rfl, by decide⟩
theorem witness_frame_faulted : ∃ b', exec (.clr 0) ⟨c10, faultedBlock⟩ = .next ⟨c10, b'⟩ ∧ faultedBlock.faulted = true :=
  ⟨_, rfl, by decide⟩
theorem witness_bit_commands : positionOf (.unset 1 9) = some 9 ∧ (9 : BitVec 16).toNat < c10.N ∧ 15 < c10.W * c10.S ∧
    (load c10 [] [0xFF, 0xFF] 0).faulted = false := by decide
theorem witness_status_by_rst : ∃ b', step ⟨c10, { faultedBlock with queue := [.rst] }⟩ = .next ⟨c10, b'⟩ ∧
    b'.fstat ≠ faultedBlock.fstat := ⟨_, rfl, by decide⟩
theorem witness_status_by_fault : ∃ b', step ⟨c10, (Block.reset c10).issue 0xB0000000#32 0⟩ = .next ⟨c10, b'⟩ ∧
    b'.fstat ≠ (Block.reset c10).fstat := ⟨_, rfl, by decide⟩
theorem witness_latch : faultedBlock.LatchLegal ∧ ∃ b', step ⟨c10, faultedBlock⟩ = .next ⟨c10, b'⟩ :=
  ⟨.inr (.inr ⟨by decide, by decide, .test 0 10, 10, by decide, by decide, by decide⟩), _, rfl⟩
theorem witness_padding_differs : (load c10 [0x04, 0x00] [] 0).SameLogically (load c10 [0x00, 0x00] [] 0) ∧
    (load c10 [0x04, 0x00] [] 0).readReg 0 ≠ (load c10 [0x00, 0x00] [] 0).readReg 0 := by decide

end Sys2Proof.Tests
end

/-! ## 00_scope.md: parameters, the values of a vector, and the answer to a command -/

/-! ### The words of a block and the bits of its top word -/

namespace Sys2Proof

/-- `W` as a floor: the whole words below the word of bit `N - 1`, and that word. -/
theorem Config.W_eq (c : Config) : c.W = (c.N - 1) / c.S + 1 := by
  have shift : c.N + c.S - 1 = c.N - 1 + c.S := by have := c.N_pos; omega
  rw [Config.W, shift, Nat.add_div_right _ c.S_pos]

/-- `first` counts the bits of word 0 up to bit `N - 1`, in both cases of R8. -/
theorem Config.first_eq (c : Config) : c.first = (c.N - 1) % c.S + 1 := by
  have hN : c.N = c.S * ((c.N - 1) / c.S) + ((c.N - 1) % c.S + 1) := by
    have := c.N_pos
    have := Nat.div_add_mod (c.N - 1) c.S
    omega
  have hr : (c.N - 1) % c.S + 1 ≤ c.S := Nat.mod_lt _ c.S_pos
  obtain hfull | hpart := hr.eq_or_lt
  · have : c.N % c.S = 0 := by rw [hN, hfull, Nat.mul_add_mod_self_left, Nat.mod_self]
    rw [Config.first, if_pos this, hfull]
  · have : c.N % c.S = (c.N - 1) % c.S + 1 := by
      conv_lhs => rw [hN]
      rw [Nat.mul_add_mod_self_left, Nat.mod_eq_of_lt hpart]
    rw [Config.first, if_neg (by omega), this]

theorem Config.first_pos (c : Config) : 1 ≤ c.first := by
  rw [c.first_eq]
  exact Nat.le_add_left _ _

theorem Config.first_le_S (c : Config) : c.first ≤ c.S := by
  rw [c.first_eq]
  exact Nat.mod_lt _ c.S_pos

/-- R8: the words after word 0 are full, and word 0 holds `first` bits. -/
theorem Config.N_eq (c : Config) : c.N = (c.W - 1) * c.S + c.first := by
  have := c.N_pos
  have := Nat.div_add_mod' (c.N - 1) c.S
  rw [c.W_eq, c.first_eq, Nat.add_sub_cancel]
  omega

/-- The stored bits are those of the words after word 0 and the `S` bits of word 0. -/
theorem Config.W_mul_S_eq (c : Config) : c.W * c.S = (c.W - 1) * c.S + c.S := by
  rw [← Nat.succ_mul, Nat.succ_eq_add_one, Nat.sub_add_cancel c.W_pos]

theorem Config.N_le_W_mul_S (c : Config) : c.N ≤ c.W * c.S := by
  have := c.first_le_S
  have := c.N_eq
  rw [c.W_mul_S_eq]
  omega

end Sys2Proof

/-- Settles O1: `N = (W - 1) * S + first` with `1 ≤ first ≤ S` puts `N` above `(W - 1) * S` and within `W * S`. -/
theorem wordsAndTopBitsCoverTheWidth : Obligations.WordsAndTopBitsCoverTheWidth := by
  intro c
  have above : (c.W - 1) * c.S < c.N := by
    have := c.first_pos
    have := c.N_eq
    omega
  exact ⟨above, c.N_le_W_mul_S, c.first_pos, c.first_le_S, c.N_eq⟩

/-! ### PHYS as a number in base `2^S` -/

namespace Sys2Proof.Machine

variable {c : Config}

/-- The words of a vector as digits in base `2^S`, the least significant (index `W - 1`) first. -/
def wordDigits (v : Vec c) (j : Fin c.W) : Fin (2 ^ c.S) := v[j.rev].toFin

/-- PHYS reads the digits in base `2^S`: Mathlib's bijection between digit functions and the numbers below
`(2^S)^W`. -/
theorem phys_eq_finFunctionFinEquiv (v : Vec c) : phys v = finFunctionFinEquiv (wordDigits v) := by
  have weight (j : Fin c.W) : c.W - 1 - j.rev.val = j.val := by
    rw [Fin.val_rev]
    omega
  have digit (j : Fin c.W) : v[j.rev].toNat * 2 ^ ((c.W - 1 - j.rev.val) * c.S) =
      (wordDigits v j).val * (2 ^ c.S) ^ j.val := by
    rw [weight, Nat.mul_comm j.val, Nat.pow_mul]
    rfl
  rw [phys, ← Fin.sum_univ_def, finFunctionFinEquiv_apply, ← Equiv.sum_comp Fin.revPerm]
  exact Finset.sum_congr rfl fun j _ => digit j

/-- R13: PHYS is a number of `W * S` bits. -/
theorem phys_lt (v : Vec c) : phys v < 2 ^ (c.W * c.S) := by
  rw [phys_eq_finFunctionFinEquiv, Nat.mul_comm, Nat.pow_mul]
  exact (finFunctionFinEquiv (wordDigits v)).isLt

/-- Every word can be read off PHYS: word `i` is its digit of weight `W - 1 - i`. -/
theorem toNat_word (v : Vec c) (i : Nat) (h : i < c.W) :
    v[i].toNat = phys v / 2 ^ ((c.W - 1 - i) * c.S) % 2 ^ c.S := by
  have digit : (wordDigits v (Fin.rev ⟨i, h⟩)).val = v[i].toNat := by simp [wordDigits]
  have weight : (Fin.rev ⟨i, h⟩ : Fin c.W).val = c.W - 1 - i := by simp [Nat.sub_sub, Nat.add_comm]
  rw [← digit, ← finFunctionFinEquiv.symm_apply_apply (wordDigits v), finFunctionFinEquiv_symm_apply_val,
    ← phys_eq_finFunctionFinEquiv, ← Nat.pow_mul, Nat.mul_comm c.S, weight]

/-- R11: PHYS loses nothing of the stored words. -/
theorem phys_inj {u v : Vec c} : phys u = phys v ↔ u = v := by
  refine ⟨fun h => Vector.ext fun i hi => BitVec.eq_of_toNat_eq ?_, congrArg phys⟩
  rw [toNat_word, toNat_word, h]

/-- R13: VAL is a number of `N` bits. -/
theorem val_lt (v : Vec c) : val v < 2 ^ c.N := Nat.mod_lt _ (Nat.two_pow_pos c.N)

end Sys2Proof.Machine

/-- Settles O3: PHYS is a bijection from the vectors to the numbers of `W` digits in base `2^S`. -/
theorem physRangeAndFaithfulness : Obligations.PhysRangeAndFaithfulness :=
  fun _ u _ => ⟨Sys2Proof.Machine.phys_lt u, Sys2Proof.Machine.phys_inj, Sys2Proof.Machine.val_lt u⟩

/-! ### The bits of PHYS and VAL -/

namespace Sys2Proof.Machine

variable {c : Config}

/-- R44: the bit that the index translation selects is the bit of PHYS. -/
theorem bitAt_eq_testBit_phys (v : Vec c) {pos : Nat} (h : pos < c.W * c.S) : bitAt v pos = (phys v).testBit pos := by
  have word_lt : pos / c.S < c.W := Nat.div_lt_of_lt_mul (by rwa [Nat.mul_comm])
  have offset_lt : pos % c.S < c.S := Nat.mod_lt _ c.S_pos
  have weight : c.W - 1 - wordIndexFor c pos = pos / c.S := Nat.sub_sub_self (Nat.le_sub_one_of_lt word_lt)
  calc bitAt v pos
      = (phys v / 2 ^ (pos / c.S * c.S) % 2 ^ c.S).testBit (pos % c.S) := by
        rw [← weight, ← toNat_word v _ (wordIndexFor_lt c pos), BitVec.testBit_toNat]
        rfl
    _ = (phys v).testBit (pos % c.S + pos / c.S * c.S) := by
        simp [Nat.testBit_mod_two_pow, Nat.testBit_div_two_pow, offset_lt]
    _ = (phys v).testBit pos := by rw [Nat.mod_add_div']

/-- R12: below `N` it is the bit of VAL too. -/
theorem bitAt_eq_testBit_val (v : Vec c) {pos : Nat} (h : pos < c.N) : bitAt v pos = (val v).testBit pos := by
  rw [bitAt_eq_testBit_phys v (h.trans_le c.N_le_W_mul_S), val, Nat.testBit_mod_two_pow]
  simp [h]

end Sys2Proof.Machine

/-- Settles O4: word `W - 1 - pos / S` is the digit of PHYS of weight `pos / S`, and the offset selects its bit. -/
theorem bitIsBitOfPhys : Obligations.BitIsBitOfPhys :=
  fun _ v _ => ⟨Sys2Proof.Machine.bitAt_eq_testBit_phys v, Sys2Proof.Machine.bitAt_eq_testBit_val v⟩

/-! ### One response to each command -/

namespace Sys2Proof.Machine

variable {c : Config}

/-- The rule that a command runs on a block that is not faulted. -/
def ruleOf (i : Instr) : Block c → Block c :=
  match i with
  | .clr rd => clrRule rd
  | .ldi rd => ldiRule rd
  | .ldv rd => ldvRule rd
  | .shl rd rs1 pos => shlRule rd rs1 pos
  | .and rd rs1 rs2 => andRule rd rs1 rs2
  | .dec rd => decRule rd
  | .popc rs1 => popcRule rs1
  | .test rs1 pos => testRule rs1 pos
  | .set rd pos => setRule rd pos
  | .unset rd pos => unsetRule rd pos

/-- Every arm of `exec` performs the rule of its command. -/
theorem exec_eq_perform (i : Instr) (s : State) : exec i s = s.perform (ruleOf i) := by
  cases i <;> rfl

/-- The rule that a command word runs on a block that is not faulted; an illegal word takes the fault. -/
def decodedRule : Decoded → Block c → Block c
  | .instr i => ruleOf i
  | .illegal _ => fun b => b.takeFault .illegalCmd

/-- A step that takes a command word, legal or not. -/
theorem step_eq_perform {b : Block c} {w : BitVec 32} {d : BitVec (c.W * c.S)} {q : List (HostInput c)}
    (h : b.queue = .command w d :: q) :
    step ⟨c, b⟩ = State.perform ⟨c, b.accept w d q⟩ (decodedRule (decode c w)) := by
  cases hd : decode c w with
  | instr i => rw [step_command h hd, exec_eq_perform, decodedRule]
  | illegal why => rw [step_illegal h hd, State.performIllegal, decodedRule]

/-- One response was added after those given, and the ports are as they were. -/
def Block.AnswersOnce (b b' : Block c) : Prop :=
  b'.queue = b.queue ∧ b'.cmd = b.cmd ∧ b'.din = b.din ∧ ∃ r, b'.rsps = b.rsps ++ [r]

theorem Block.respond_answersOnce (b : Block c) (d : BitVec 16) : b.AnswersOnce (b.respond d) :=
  ⟨rfl, rfl, rfl, _, rfl⟩

theorem Block.writeReg_respond_answersOnce (b : Block c) (r : Reg) (v : Vec c) (d : BitVec 16) :
    b.AnswersOnce ((b.writeReg r v).respond d) :=
  ⟨rfl, rfl, rfl, _, rfl⟩

theorem Block.takeFault_answersOnce (b : Block c) (k : Cause) : b.AnswersOnce (b.takeFault k) :=
  ⟨rfl, rfl, rfl, _, rfl⟩

theorem Block.answerFaulted_answersOnce (b : Block c) : b.AnswersOnce b.answerFaulted :=
  ⟨rfl, rfl, rfl, _, rfl⟩

/-- A rule behind the range check answers once, as the fault it may take instead does. -/
theorem Block.ifInRange_answersOnce (b : Block c) (pos : BitVec 16) {rule : Block c → Block c}
    (h : b.AnswersOnce (rule b)) : b.AnswersOnce (b.ifInRange pos rule) := by
  obtain hin | hout := Nat.lt_or_ge pos.toNat c.N
  · rwa [b.ifInRange_inside hin]
  · rw [b.ifInRange_outside hout]
    exact b.takeFault_answersOnce .posRange

/-- LDV answers once in both cases of its own check. -/
theorem ldvRule_answersOnce (rd : Reg) (b : Block c) : b.AnswersOnce (ldvRule rd b) := by
  unfold ldvRule
  split
  · exact b.takeFault_answersOnce .illegalCmd
  · exact b.writeReg_respond_answersOnce rd _ 0

/-- R60: the rule of every command answers exactly once. -/
theorem ruleOf_answersOnce (i : Instr) (b : Block c) : b.AnswersOnce (ruleOf i b) := by
  cases i with
  | clr rd => exact b.writeReg_respond_answersOnce rd _ 0
  | ldi rd => exact b.writeReg_respond_answersOnce rd _ 0
  | ldv rd => exact ldvRule_answersOnce rd b
  | shl rd rs1 pos => exact b.writeReg_respond_answersOnce rd _ 0
  | and rd rs1 rs2 => exact b.writeReg_respond_answersOnce rd _ 0
  | dec rd => exact b.writeReg_respond_answersOnce rd _ 0
  | popc rs1 => exact b.respond_answersOnce _
  | test rs1 pos => exact b.ifInRange_answersOnce pos (b.respond_answersOnce _)
  | set rd pos => exact b.ifInRange_answersOnce pos (b.writeReg_respond_answersOnce rd _ 0)
  | unset rd pos => exact b.ifInRange_answersOnce pos (b.writeReg_respond_answersOnce rd _ 0)

theorem decodedRule_answersOnce (x : Decoded) (b : Block c) : b.AnswersOnce (decodedRule x b) := by
  cases x with
  | instr i => exact ruleOf_answersOnce i b
  | illegal why => exact b.takeFault_answersOnce .illegalCmd

/-- R60, R176: a step that takes a command answers it once, in the faulted state too. -/
theorem step_command_answersOnce {b : Block c} {w : BitVec 32} {d : BitVec (c.W * c.S)} {q : List (HostInput c)}
    (h : b.queue = .command w d :: q) : ∃ b', step ⟨c, b⟩ = .next ⟨c, b'⟩ ∧ (b.accept w d q).AnswersOnce b' := by
  rw [step_eq_perform h]
  obtain ⟨-, hp⟩ | ⟨-, hp⟩ := State.perform_cases ⟨c, b.accept w d q⟩ (decodedRule (decode c w))
  · exact ⟨_, hp, (b.accept w d q).answerFaulted_answersOnce⟩
  · exact ⟨_, hp, decodedRule_answersOnce _ _⟩

end Sys2Proof.Machine

section

open Sys2Proof.Machine

/-- Settles O23: by the three things a step can find at the ports. -/
theorem oneResponsePerCommand : Obligations.OneResponsePerCommand := by
  intro c b
  obtain ⟨hq, -⟩ | ⟨q, hq, -⟩ | ⟨w, d, q, hq, -⟩ := b.nextInput_cases
  · exact ⟨b, step_idle hq, by simp [hq]⟩
  · exact ⟨_, step_rst hq, by simp [hq]⟩
  · obtain ⟨b', hstep, hqueue, hcmd, hdin, r, hrsps⟩ := step_command_answersOnce hq
    refine ⟨b', hstep, by simp [hq], by simp [hq], fun w' d' rest hq' => ?_⟩
    obtain ⟨⟨rfl, rfl⟩, rfl⟩ : (w = w' ∧ d = d') ∧ q = rest := by simpa [hq] using hq'
    exact ⟨hqueue, hcmd, hdin, r, hrsps⟩

end

/-! ## 10_state.md: positions, the effect of a command, and what no step lets out -/

/-! ### Positions below `W * S` and the bits they name -/

namespace Sys2Proof.Machine

variable {c : Config}

theorem stored_of_lt_N {pos : Nat} (h : pos < c.N) : pos < c.W * c.S := h.trans_le c.N_le_W_mul_S

theorem div_S_le {pos : Nat} (h : pos < c.W * c.S) : pos / c.S ≤ c.W - 1 :=
  Nat.le_sub_one_of_lt (Nat.div_lt_of_lt_mul (by rwa [Nat.mul_comm]))

/-- R23: a position is recovered from its word index and its offset. -/
theorem position_of_index_offset {pos : Nat} (h : pos < c.W * c.S) :
    (c.W - 1 - wordIndexFor c pos) * c.S + bitOffsetFor c pos = pos := by
  rw [wordIndexFor, Nat.sub_sub_self (div_S_le h)]
  exact Nat.div_add_mod' pos c.S

/-- No two positions share word and offset. -/
theorem index_offset_inj {p q : Nat} (hp : p < c.W * c.S) (hq : q < c.W * c.S) :
    wordIndexFor c p = wordIndexFor c q ∧ bitOffsetFor c p = bitOffsetFor c q ↔ p = q := by
  refine ⟨fun ⟨hword, hoffset⟩ => ?_, fun h => h ▸ ⟨rfl, rfl⟩⟩
  rw [← position_of_index_offset hp, ← position_of_index_offset hq, hword, hoffset]

@[simp] theorem Block.cause_reset : (Block.reset c).cause = 0 := by simp [Block.cause]

theorem Block.reset_latchLegal (c : Config) : (Block.reset c).LatchLegal := .inl ⟨faulted_reset, cause_reset, rfl⟩

end Sys2Proof.Machine

section

open Sys2Proof Sys2Proof.Machine

/-- Settles O5: `W - 1` is `(N - 1) / S` and `first - 1` is `(N - 1) mod S`, so the index translation is division with
remainder by `S`, its quotient counted down from `W - 1`. -/
theorem positionsMapInsideTheVector : Obligations.PositionsMapInsideTheVector := by
  intro c
  have last_word : wordIndexFor c 0 = c.W - 1 := by simp [wordIndexFor]
  have top_word : wordIndexFor c (c.N - 1) = 0 := by simp [wordIndexFor, c.W_eq]
  have top_offset : bitOffsetFor c (c.N - 1) = c.first - 1 := by simp [bitOffsetFor, c.first_eq]
  refine ⟨fun pos h => ?_, last_word, Nat.zero_mod _, top_word, top_offset⟩
  have stored := stored_of_lt_N h
  exact ⟨div_S_le stored, Nat.sub_le _ _, position_of_index_offset stored⟩

/-- Settles O20: reset writes the zero vector to every register, and 0 to FSTAT and FCMD. -/
theorem resetZeroesTheState : Obligations.ResetZeroesTheState := by
  have zeroed (c : Config) (r : Reg) (i : Fin c.W) : ((Block.reset c).readReg r)[i] = 0 := by
    simp [Block.readReg_reset]
  rintro s (rfl | ⟨c, rfl⟩)
  · exact ⟨zeroed _, rfl, rfl, Block.faulted_reset, Block.cause_reset⟩
  · exact ⟨zeroed c, rfl, rfl, Block.faulted_reset, Block.cause_reset⟩

/-- Settles O58: after reset no fault is latched and all is 0. -/
theorem resetLatchIsLegal : Obligations.ResetLatchIsLegal :=
  ⟨Block.reset_latchLegal, Block.reset_latchLegal _⟩

end

/-! ### The effect of a command -/

namespace Sys2Proof.Machine

variable {c : Config}

/-- The three ways a command can end in a running block: the table after R25, and R174. -/
inductive Effect (c : Config) where
  /-- the fault of this cause, no register written -/
  | fault (k : Cause)
  /-- the vector written to the register, and the response 0 -/
  | write (rd : Reg) (v : Vec c)
  /-- the response, no register written -/
  | answer (d : BitVec 16)

/-- The block in which an effect ends the command that `b` has at its port. -/
def Effect.apply (e : Effect c) (b : Block c) : Block c :=
  match e with
  | .fault k => b.takeFault k
  | .write rd v => (b.writeReg rd v).respond 0
  | .answer d => b.respond d

/-- R151: the effect of a command that names a position. -/
def Effect.ifInRange (e : Effect c) (pos : BitVec 16) : Effect c := if pos.toNat < c.N then e else .fault .posRange

theorem Effect.ifInRange_cases (e : Effect c) (pos : BitVec 16) :
    (pos.toNat < c.N ∧ e.ifInRange pos = e) ∨ (c.N ≤ pos.toNat ∧ e.ifInRange pos = .fault .posRange) := by
  obtain h | h := Nat.lt_or_ge pos.toNat c.N
  · exact .inl ⟨h, if_pos h⟩
  · exact .inr ⟨h, if_neg (Nat.not_lt.mpr h)⟩

theorem Effect.eq_write_of_ifInRange {e : Effect c} {pos : BitVec 16} {rd : Reg} {v : Vec c}
    (h : e.ifInRange pos = .write rd v) : e = .write rd v := by
  obtain ⟨-, he⟩ | ⟨-, he⟩ := e.ifInRange_cases pos
  · rw [← he, h]
  · cases he.symm.trans h

/-- A fault behind the range check is its own unless the position is out of range. -/
theorem Effect.eq_fault_of_ifInRange {e : Effect c} {pos : BitVec 16} {k : Cause} (h : e.ifInRange pos = .fault k) :
    e = .fault k ∨ (k = .posRange ∧ c.N ≤ pos.toNat) := by
  obtain ⟨-, he⟩ | ⟨hout, he⟩ := e.ifInRange_cases pos
  · exact .inl (he.symm.trans h)
  · cases he.symm.trans h
    exact .inr ⟨rfl, hout⟩

/-- A rule behind the range check applies its effect behind the same check. -/
theorem Effect.apply_ifInRange {e : Effect c} {b : Block c} {rule : Block c → Block c} (h : rule b = e.apply b)
    (pos : BitVec 16) : b.ifInRange pos rule = (e.ifInRange pos).apply b := by
  obtain ⟨hin, he⟩ | ⟨hout, he⟩ := e.ifInRange_cases pos
  · rw [b.ifInRange_inside hin, he, h]
  · rw [b.ifInRange_outside hout, he, apply]

/-- The effect of each command on a running block. -/
def effectOf (i : Instr) (b : Block c) : Effect c :=
  match i with
  | .clr rd => .write rd (zeroVec c)
  | .ldi rd => .write rd (lastWordVec (dinLow c b.din))
  | .ldv rd => if c.W = 1 then .fault .illegalCmd else .write rd (dinVec b.din)
  | .shl rd rs1 pos => .write rd (shiftLeftVec (b.readReg rs1) pos.toNat)
  | .and rd rs1 rs2 => .write rd (andVec (b.readReg rs1) (b.readReg rs2))
  | .dec rd => .write rd (decrementVec (b.readReg rd))
  | .popc rs1 => .answer (BitVec.ofNat 16 (logicalCount (b.readReg rs1)))
  | .test rs1 pos => (Effect.answer ((testWord (b.readReg rs1) pos.toNat).setWidth 16)).ifInRange pos
  | .set rd pos => (Effect.write rd (setBitVec (b.readReg rd) pos.toNat)).ifInRange pos
  | .unset rd pos => (Effect.write rd (unsetBitVec (b.readReg rd) pos.toNat)).ifInRange pos

/-- Every rule of the model applies the effect of its command. -/
theorem ruleOf_eq_apply (i : Instr) (b : Block c) : ruleOf i b = (effectOf i b).apply b := by
  cases i with
  | ldv rd =>
    simp only [ruleOf, ldvRule, effectOf]
    split <;> rfl
  | test | set | unset =>
    apply Effect.apply_ifInRange
    rfl
  | clr | ldi | shl | and | dec | popc => rfl

/-- The effect of a command word; an illegal word takes the fault. -/
def decodedEffect : Decoded → Block c → Effect c
  | .instr i => effectOf i
  | .illegal _ => fun _ => .fault .illegalCmd

theorem decodedRule_eq_apply (x : Decoded) (b : Block c) : decodedRule x b = (decodedEffect x b).apply b := by
  cases x with
  | instr i => exact ruleOf_eq_apply i b
  | illegal why => rfl

/-- The only register a command writes is its destination. -/
theorem destOf_of_effectOf_eq_write {i : Instr} {b : Block c} {rd : Reg} {v : Vec c} (h : effectOf i b = .write rd v) :
    destOf i = some rd := by
  cases i with
  | ldv rd' =>
    simp only [effectOf] at h
    split at h <;> cases h
    rfl
  | popc rs1 => cases h
  | test rs1 pos => cases Effect.eq_write_of_ifInRange h
  | set rd' pos =>
    cases Effect.eq_write_of_ifInRange h
    rfl
  | unset rd' pos =>
    cases Effect.eq_write_of_ifInRange h
    rfl
  | clr | ldi | shl | and | dec =>
    cases h
    rfl

/-- R172, R173: why a decoded command faults: LDV in a block of one word, or a position out of range. -/
theorem reason_of_effectOf_eq_fault {i : Instr} {b : Block c} {k : Cause} (h : effectOf i b = .fault k) :
    (k = .illegalCmd ∧ c.W = 1 ∧ ∃ rd, i = .ldv rd) ∨
    (k = .posRange ∧ ∃ pos, positionOf i = some pos ∧ c.N ≤ pos.toNat) := by
  have out_of_range {e : Effect c} {pos : BitVec 16} (h : e.ifInRange pos = .fault k) (he : e ≠ .fault k)
      (hp : positionOf i = some pos) : k = .posRange ∧ ∃ pos, positionOf i = some pos ∧ c.N ≤ pos.toNat := by
    obtain ⟨hk, hout⟩ := (Effect.eq_fault_of_ifInRange h).resolve_left he
    exact ⟨hk, pos, hp, hout⟩
  cases i with
  | ldv rd =>
    simp only [effectOf] at h
    split at h <;> cases h
    exact .inl ⟨rfl, ‹_›, rd, rfl⟩
  | test rs1 pos => exact .inr (out_of_range h nofun rfl)
  | set rd pos => exact .inr (out_of_range h nofun rfl)
  | unset rd pos => exact .inr (out_of_range h nofun rfl)
  | clr | ldi | shl | and | dec | popc => cases h

/-- R69: the decoder answers LDV only in a block of more than one word. -/
theorem W_ne_one_of_decode_eq_ldv {w : BitVec 32} {rd : Reg} (h : decode c w = .instr (.ldv rd)) : c.W ≠ 1 := by
  intro hW
  simp only [decode] at h
  split at h
  · cases h
  · next r _ =>
    split at h
    · cases h
    · next hne =>
      have : r.mnemonic ≠ .ldv := fun hm => hne ⟨hm, hW⟩
      generalize r.mnemonic = m at h this
      cases m <;> cases h
      exact this rfl

/-- R172, R173: what makes a command word raise a fault of this cause. -/
def FaultReason (c : Config) (w : BitVec 32) : Cause → Prop
  | .illegalCmd => ∃ why, decode c w = .illegal why
  | .posRange => ∃ i pos, decode c w = .instr i ∧ positionOf i = some pos ∧ c.N ≤ pos.toNat

theorem faultReason_of_decodedEffect_eq_fault {w : BitVec 32} {b : Block c} {k : Cause}
    (h : decodedEffect (decode c w) b = .fault k) : FaultReason c w k := by
  cases hd : decode c w with
  | illegal why =>
    rw [hd] at h
    cases h
    exact ⟨why, hd⟩
  | instr i =>
    rw [hd] at h
    obtain ⟨rfl, hW, rd, rfl⟩ | ⟨rfl, pos, hpos, hout⟩ := reason_of_effectOf_eq_fault h
    · exact absurd hW (W_ne_one_of_decode_eq_ldv hd)
    · exact ⟨i, pos, hd, hpos, hout⟩

/-! ### The frame of a command -/

theorem exec_faulted (i : Instr) {b : Block c} (h : b.faulted = true) :
    exec i ⟨c, b⟩ = .next ⟨c, b.answerFaulted⟩ := by
  rw [exec_eq_perform, State.perform_faulted h]

theorem exec_running (i : Instr) {b : Block c} (h : b.faulted = false) :
    exec i ⟨c, b⟩ = .next ⟨c, (effectOf i b).apply b⟩ := by
  rw [exec_eq_perform, State.perform_running h, ruleOf_eq_apply]

theorem Block.answerFaulted_turnedAway (b : Block c) : b.TurnedAway b.answerFaulted := ⟨rfl, rfl, rfl, rfl, rfl⟩

theorem Block.takeFault_faultEntry (b : Block c) (k : Cause) : b.FaultEntry (b.takeFault k) b.cmd (causeCode k) :=
  ⟨rfl, b.faulted_takeFault k, b.cause_takeFault k, rfl, rfl, rfl⟩

/-- An effect that writes no other register than `dest` leaves every other as it was. -/
theorem Effect.readReg_apply {e : Effect c} {dest : Option Reg} (he : ∀ rd v, e = .write rd v → dest = some rd)
    (b : Block c) {r : Reg} (hr : dest ≠ some r) : (e.apply b).readReg r = b.readReg r := by
  cases e with
  | fault k => rfl
  | answer d => rfl
  | write rd v =>
    have : r ≠ rd := fun h => hr (h ▸ he rd v rfl)
    exact b.readReg_writeReg_ne this v

/-- FSTAT and FCMD change by a fault only. -/
theorem Effect.apply_status_cases (e : Effect c) (b : Block c) :
    ((e.apply b).fstat = b.fstat ∧ (e.apply b).fcmd = b.fcmd) ∨ ∃ k, e = .fault k := by
  cases e with
  | fault k => exact .inr ⟨k, rfl⟩
  | write rd v => exact .inl ⟨rfl, rfl⟩
  | answer d => exact .inl ⟨rfl, rfl⟩

end Sys2Proof.Machine

section

open Sys2Proof Sys2Proof.Machine

/-- Settles O54: a faulted block only answers, and a running one applies the effect of the command, which writes the
destination, answers or takes a fault. -/
theorem commandsWriteOnlyTheirDestination : Obligations.CommandsWriteOnlyTheirDestination := by
  intro i c b b' h
  cases hf : b.faulted with
  | true =>
    cases next_block_inj ((exec_faulted i hf).symm.trans h)
    exact ⟨fun _ _ => rfl, rfl, rfl, rfl, ⟨_, rfl⟩, .inl ⟨rfl, rfl⟩, fun _ => b.answerFaulted_turnedAway⟩
  | false =>
    cases next_block_inj ((exec_running i hf).symm.trans h)
    have answers : b.AnswersOnce ((effectOf i b).apply b) := ruleOf_eq_apply i b ▸ ruleOf_answersOnce i b
    obtain ⟨hqueue, hcmd, hdin, hrsps⟩ := answers
    refine ⟨fun r hr => Effect.readReg_apply (fun _ _ => destOf_of_effectOf_eq_write) b hr, hcmd, hdin, hqueue, hrsps,
      ?_, nofun⟩
    obtain hkept | ⟨k, hk⟩ := (effectOf i b).apply_status_cases b
    · exact .inl hkept
    · rw [hk]
      exact .inr ⟨rfl, _, b.takeFault_faultEntry k⟩

end

/-! ### What a step does to FSTAT and FCMD -/

namespace Sys2Proof.Machine

variable {c : Config}

/-- A step of a faulted block that takes a command. -/
theorem step_command_faulted {b : Block c} {w : BitVec 32} {d : BitVec (c.W * c.S)} {q : List (HostInput c)}
    (h : b.queue = .command w d :: q) (hf : b.faulted = true) :
    step ⟨c, b⟩ = .next ⟨c, (b.accept w d q).answerFaulted⟩ := by
  rw [step_eq_perform h]
  exact State.perform_faulted (b := b.accept w d q) hf _

/-- A step of a running block that takes a command. -/
theorem step_command_running {b : Block c} {w : BitVec 32} {d : BitVec (c.W * c.S)} {q : List (HostInput c)}
    (h : b.queue = .command w d :: q) (hf : b.faulted = false) :
    step ⟨c, b⟩ = .next ⟨c, (decodedEffect (decode c w) (b.accept w d q)).apply (b.accept w d q)⟩ := by
  rw [step_eq_perform h, ← decodedRule_eq_apply]
  exact State.perform_running (b := b.accept w d q) hf _

/-- R28, R29: a step leaves FSTAT and FCMD alone, resets them, or latches a fault that its command word raises. -/
theorem step_status_cases {b b' : Block c} (h : step ⟨c, b⟩ = .next ⟨c, b'⟩) :
    (b'.fstat = b.fstat ∧ b'.fcmd = b.fcmd) ∨
    (∃ q, b.queue = .rst :: q ∧ b'.fstat = 0 ∧ b'.fcmd = 0) ∨
    (∃ w d q k, b.queue = .command w d :: q ∧ b.faulted = false ∧ FaultReason c w k ∧
      b'.faulted = true ∧ b'.cause = causeCode k ∧ b'.fcmd = w) := by
  obtain ⟨hq, -⟩ | ⟨q, hq, -⟩ | ⟨w, d, q, hq, -⟩ := b.nextInput_cases
  · cases next_block_inj ((step_idle hq).symm.trans h)
    exact .inl ⟨rfl, rfl⟩
  · cases next_block_inj ((step_rst hq).symm.trans h)
    exact .inr (.inl ⟨q, hq, rfl, rfl⟩)
  · cases hf : b.faulted with
    | true =>
      cases next_block_inj ((step_command_faulted hq hf).symm.trans h)
      exact .inl ⟨rfl, rfl⟩
    | false =>
      cases next_block_inj ((step_command_running hq hf).symm.trans h)
      obtain hkept | ⟨k, hk⟩ := (decodedEffect (decode c w) (b.accept w d q)).apply_status_cases (b.accept w d q)
      · exact .inl hkept
      · rw [hk]
        exact .inr (.inr ⟨w, d, q, k, hq, rfl, faultReason_of_decodedEffect_eq_fault hk, Block.faulted_takeFault _ k,
          Block.cause_takeFault _ k, rfl⟩)

theorem Block.LatchLegal.congr {b b' : Block c} (h : b.LatchLegal) (hstat : b'.fstat = b.fstat)
    (hcmd : b'.fcmd = b.fcmd) : b'.LatchLegal := by
  simpa only [LatchLegal, faulted, cause, hstat, hcmd] using h

/-- A latched fault whose reason FCMD still shows is legal. -/
theorem Block.latchLegal_of_faultReason {b : Block c} {k : Cause} (hf : b.faulted = true) (hc : b.cause = causeCode k)
    (h : FaultReason c b.fcmd k) : b.LatchLegal := by
  cases k with
  | illegalCmd => exact .inr (.inl ⟨hf, hc, h⟩)
  | posRange => exact .inr (.inr ⟨hf, hc, h⟩)

end Sys2Proof.Machine

section

open Sys2Proof Sys2Proof.Machine

/-- Settles O56: by the three things a step can do to the status. -/
theorem statusIsWrittenOnlyByFaultOrReset : Obligations.StatusIsWrittenOnlyByFaultOrReset := by
  intro c b b' h hchanged
  obtain ⟨hstat, hcmd⟩ | hrst | ⟨w, d, q, k, hq, hrun, -, hf, hcause, hfcmd⟩ := step_status_cases h
  · exact absurd hchanged (by simp [hstat, hcmd])
  · exact .inl hrst
  · refine .inr ⟨w, d, q, hq, hrun, hf, hfcmd, ?_⟩
    cases k with
    | illegalCmd => exact .inl hcause
    | posRange => exact .inr hcause

/-- Settles O57: the status is kept, is that of reset, or shows a fault beside the word that raised it. -/
theorem stepKeepsTheLatchLegal : Obligations.StepKeepsTheLatchLegal := by
  intro c b b' hlegal h
  obtain ⟨hstat, hcmd⟩ | ⟨q, -, hstat, hcmd⟩ | ⟨w, d, q, k, -, -, hreason, hf, hcause, rfl⟩ := step_status_cases h
  · exact hlegal.congr hstat hcmd
  · exact (Block.reset_latchLegal c).congr hstat hcmd
  · exact Block.latchLegal_of_faultReason hf hcause hreason

end

/-! ### VAL by its bits and its words -/

namespace Sys2Proof.Machine

variable {c : Config}

/-- Two vectors have the same logical value when they agree at every position below `N`. -/
theorem val_eq_iff_bitAt {u v : Vec c} : val u = val v ↔ ∀ pos, pos < c.N → bitAt u pos = bitAt v pos := by
  refine ⟨fun h pos hpos => ?_, fun h => Nat.eq_of_testBit_eq fun pos => ?_⟩
  · rw [bitAt_eq_testBit_val u hpos, bitAt_eq_testBit_val v hpos, h]
  · obtain hin | hout := Nat.lt_or_ge pos c.N
    · rw [← bitAt_eq_testBit_val u hin, ← bitAt_eq_testBit_val v hin, h pos hin]
    · have beyond (w : Vec c) : (val w).testBit pos = false :=
        Nat.testBit_lt_two_pow ((val_lt w).trans_le (Nat.pow_le_pow_right Nat.two_pos hout))
      rw [beyond u, beyond v]

theorem bitOffsetFor_lt (c : Config) (pos : Nat) : bitOffsetFor c pos < c.S := Nat.mod_lt _ c.S_pos

/-- R23: bit `j` of word `i` is the bit of position `(W - 1 - i) * S + j`. -/
theorem bitAt_position (v : Vec c) {i j : Nat} (hi : i < c.W) (hj : j < c.S) :
    bitAt v ((c.W - 1 - i) * c.S + j) = v[i].getLsbD j := by
  have word : wordIndexFor c ((c.W - 1 - i) * c.S + j) = i := by
    rw [wordIndexFor, Nat.mul_comm, Nat.mul_add_div c.S_pos, Nat.div_eq_of_lt hj]
    omega
  have offset : bitOffsetFor c ((c.W - 1 - i) * c.S + j) = j := by
    rw [bitOffsetFor, Nat.mul_add_mod_self_right, Nat.mod_eq_of_lt hj]
  simp only [bitAt, selectWord, word, offset]

/-- The positions of the words after word 0 lie below those of word 0. -/
theorem position_lt_of_word_pos {i j : Nat} (hi : i < c.W) (hpos : 0 < i) (hj : j < c.S) :
    (c.W - 1 - i) * c.S + j < (c.W - 1) * c.S := by
  have : (c.W - 1 - i + 1) * c.S ≤ (c.W - 1) * c.S := Nat.mul_le_mul_right _ (by omega)
  rw [Nat.succ_mul] at this
  omega

/-- R22: no word but word 0 has padding, so the logical value fixes it. -/
theorem word_eq_of_val_eq {u v : Vec c} (h : val u = val v) {i : Nat} (hi : i < c.W) (hpos : 0 < i) : u[i] = v[i] := by
  refine BitVec.eq_of_getLsbD_eq fun j hj => ?_
  have : (c.W - 1 - i) * c.S + j < c.N := by
    have := position_lt_of_word_pos hi hpos hj
    have := c.N_eq
    omega
  rw [← bitAt_position u hi hj, ← bitAt_position v hi hj, val_eq_iff_bitAt.mp h _ this]

theorem topMask_getLsbD (c : Config) {j : Nat} (hj : j < c.S) : (topMask c).getLsbD j = decide (j < c.first) := by
  rw [topMask, BitVec.getLsbD_ofNat, Nat.testBit_two_pow_sub_one]
  simp [hj]

/-- R22: the logical value fixes the meaningful bits of word 0. -/
theorem top_word_eq_of_val_eq {u v : Vec c} (h : val u = val v) :
    u[0]'c.W_pos &&& topMask c = v[0]'c.W_pos &&& topMask c := by
  refine BitVec.eq_of_getLsbD_eq fun j hj => ?_
  rw [BitVec.getLsbD_and, BitVec.getLsbD_and, topMask_getLsbD c hj]
  obtain hin | hout := Nat.lt_or_ge j c.first
  · have : (c.W - 1 - 0) * c.S + j < c.N := by
      have := c.N_eq
      rw [Nat.sub_zero]
      omega
    rw [← bitAt_position u c.W_pos hj, ← bitAt_position v c.W_pos hj, val_eq_iff_bitAt.mp h _ this]
  · simp [Nat.not_lt.mpr hout]

/-! ### What each operation makes of the logical value -/

@[simp] theorem bitAt_andVec (u v : Vec c) (pos : Nat) : bitAt (andVec u v) pos = (bitAt u pos && bitAt v pos) := by
  simp [bitAt, selectWord]

/-- R44, R150: within a word the one-hot word is 1 at the offset of its position only. -/
theorem onehot_getLsbD (c : Config) (pos : Nat) {j : Nat} (hj : j < c.S) :
    (onehot c pos).getLsbD j = decide (j = bitOffsetFor c pos) := by
  obtain hlt | hge := Nat.lt_or_ge j (bitOffsetFor c pos)
  · simp [onehot, hlt, Nat.ne_of_lt hlt]
  · have : j - bitOffsetFor c pos = 0 ↔ j = bitOffsetFor c pos := by omega
    simp [onehot, hj, Nat.not_lt.mpr hge, this]

/-- R153: SET makes bit `pos` 1 and keeps every other stored bit. -/
theorem bitAt_setBitVec (v : Vec c) {pos p : Nat} (hpos : pos < c.W * c.S) (hp : p < c.W * c.S) :
    bitAt (setBitVec v pos) p = (decide (p = pos) || bitAt v p) := by
  have one : (onehot c pos).getLsbD (bitOffsetFor c p) = decide (bitOffsetFor c p = bitOffsetFor c pos) :=
    onehot_getLsbD c pos (bitOffsetFor_lt c p)
  simp only [bitAt, selectWord, setBitVec_word, ← index_offset_inj hp hpos]
  split
  · next h => simp [h, one, Bool.or_comm]
  · next h => simp [Ne.symm h]

/-- R154: UNSET makes bit `pos` 0 and keeps every other stored bit. -/
theorem bitAt_unsetBitVec (v : Vec c) {pos p : Nat} (hpos : pos < c.W * c.S) (hp : p < c.W * c.S) :
    bitAt (unsetBitVec v pos) p = (!decide (p = pos) && bitAt v p) := by
  have lt : bitOffsetFor c p < c.S := bitOffsetFor_lt c p
  have one : (onehot c pos).getLsbD (bitOffsetFor c p) = decide (bitOffsetFor c p = bitOffsetFor c pos) :=
    onehot_getLsbD c pos lt
  simp only [bitAt, selectWord, unsetBitVec_word, ← index_offset_inj hp hpos]
  split
  · next h =>
    rw [BitVec.getLsbD_and, BitVec.getLsbD_not, one]
    simp [h, lt, Bool.and_comm]
  · next h => simp [Ne.symm h]

/-- R152: the answer of TEST is the bit at the position. -/
theorem testWord_eq (v : Vec c) (pos : Nat) : (testWord v pos).setWidth 16 = if bitAt v pos then 1 else 0 := by
  have low : (selectWord v pos >>> bitOffsetFor c pos).getLsbD 0 = bitAt v pos := by
    rw [BitVec.getLsbD_ushiftRight, Nat.add_zero, bitAt]
  have one_lt : 1 < 2 ^ c.S := Nat.one_lt_two_pow (Nat.ne_of_gt c.S_pos)
  rw [testWord, BitVec.and_one_eq_setWidth_ofBool_getLsbD, low]
  refine BitVec.eq_of_toNat_eq ?_
  cases bitAt v pos <;> simp [Nat.mod_eq_of_lt one_lt]

/-- R102: the upper contribution, for the offsets from `shift` on. -/
theorem getLsbD_shiftedWord_of_le (v : Vec c) {pos i j : Nat} (hi : i + pos / c.S < c.W) (hj : j < c.S)
    (h : pos % c.S ≤ j) : (shiftedWord v pos i).getLsbD j = v[i + pos / c.S].getLsbD (j - pos % c.S) := by
  have shift_lt : pos % c.S < c.S := Nat.mod_lt _ c.S_pos
  have lt : j - pos % c.S < c.S := by omega
  have lower_empty (a : Word c) : a.getLsbD (c.S - pos % c.S + j) = false := BitVec.getLsbD_of_ge _ _ (by omega)
  rw [shiftedWord_eq v i rfl rfl, dif_pos hi]
  split <;> simp [hj, lt, Nat.not_lt.mpr h, lower_empty]

/-- R103: the lower contribution, for the offsets below `shift`. -/
theorem getLsbD_shiftedWord_of_lt (v : Vec c) {pos i j : Nat} (hi : i + (pos / c.S + 1) < c.W)
    (h : j < pos % c.S) :
    (shiftedWord v pos i).getLsbD j = v[i + (pos / c.S + 1)].getLsbD (c.S - pos % c.S + j) := by
  rw [shiftedWord_eq v i rfl rfl, dif_pos (by omega), dif_pos ⟨by omega, hi⟩]
  simp [h]

/-- Past the last word the vector is read as 0. -/
theorem getLsbD_shiftedWord_beyond (v : Vec c) {pos i j : Nat}
    (h : c.W ≤ i + pos / c.S ∨ (j < pos % c.S ∧ c.W ≤ i + (pos / c.S + 1))) :
    (shiftedWord v pos i).getLsbD j = false := by
  rw [shiftedWord_eq v i rfl rfl]
  obtain hi | ⟨hj, hi⟩ := h
  · simp [Nat.not_lt.mpr hi]
  · have : ¬ i + (pos / c.S + 1) < c.W := Nat.not_lt.mpr hi
    split <;> simp [this, hj]

/-- `k` words further on, the positions lie `k * S` lower. -/
theorem position_add_words {i k : Nat} (h : i + k < c.W) :
    (c.W - 1 - i) * c.S = (c.W - 1 - (i + k)) * c.S + k * c.S := by
  rw [← Nat.add_mul]
  congr 1
  omega

/-- R100 to R104: every bit of a shifted word comes from `pos` positions below it. -/
theorem getLsbD_shiftedWord (v : Vec c) (pos : Nat) {i j : Nat} (hi : i < c.W) (hj : j < c.S) :
    (shiftedWord v pos i).getLsbD j =
      (decide (pos ≤ (c.W - 1 - i) * c.S + j) && bitAt v ((c.W - 1 - i) * c.S + j - pos)) := by
  have amount := Nat.div_add_mod' pos c.S
  have shift_lt : pos % c.S < c.S := Nat.mod_lt _ c.S_pos
  have succ_upper := Nat.add_one_mul (pos / c.S) c.S
  obtain hupper | hbeyond := Nat.lt_or_ge (i + pos / c.S) c.W
  · have upper := position_add_words hupper
    obtain hlt | hle := Nat.lt_or_ge j (pos % c.S)
    · obtain hlower | hlast := Nat.lt_or_ge (i + (pos / c.S + 1)) c.W
      · have lower := position_add_words hlower
        have source : (c.W - 1 - i) * c.S + j - pos =
            (c.W - 1 - (i + (pos / c.S + 1))) * c.S + (c.S - pos % c.S + j) := by omega
        rw [getLsbD_shiftedWord_of_lt v hlower hlt, source, bitAt_position v hlower (by omega),
          decide_eq_true (by omega), Bool.true_and]
      · have last_word : (c.W - 1 - (i + pos / c.S)) * c.S = 0 := by
          rw [show c.W - 1 - (i + pos / c.S) = 0 by omega, Nat.zero_mul]
        rw [getLsbD_shiftedWord_beyond v (.inr ⟨hlt, hlast⟩), decide_eq_false (by omega), Bool.false_and]
    · have source : (c.W - 1 - i) * c.S + j - pos =
          (c.W - 1 - (i + pos / c.S)) * c.S + (j - pos % c.S) := by omega
      rw [getLsbD_shiftedWord_of_le v hupper hj hle, source, bitAt_position v hupper (by omega),
        decide_eq_true (by omega), Bool.true_and]
  · have : (c.W - 1 - i + 1) * c.S ≤ pos / c.S * c.S := Nat.mul_le_mul_right _ (by omega)
    rw [Nat.succ_mul] at this
    rw [getLsbD_shiftedWord_beyond v (.inl hbeyond), decide_eq_false (by omega), Bool.false_and]

/-- R100: SHL moves every stored bit `n` positions up and fills with 0. -/
theorem bitAt_shiftLeftVec (v : Vec c) (n : Nat) {pos : Nat} (hpos : pos < c.W * c.S) :
    bitAt (shiftLeftVec v n) pos = (decide (n ≤ pos) && bitAt v (pos - n)) := by
  conv_lhs => rw [bitAt, selectWord, shiftLeftVec_word]
  rw [getLsbD_shiftedWord v n (wordIndexFor_lt c pos) (bitOffsetFor_lt c pos), position_of_index_offset hpos]

/-! ### DEC on PHYS -/

/-- The share of one word in PHYS. -/
theorem phys_eq_word_add (v : Vec c) {k : Nat} (hk : k < c.W) :
    phys v = v[k].toNat * 2 ^ ((c.W - 1 - k) * c.S) +
      ∑ i ∈ ({⟨k, hk⟩} : Finset (Fin c.W))ᶜ, v[i].toNat * 2 ^ ((c.W - 1 - i.val) * c.S) := by
  rw [phys, ← Fin.sum_univ_def, Fintype.sum_eq_add_sum_compl ⟨k, hk⟩]
  rfl

/-- PHYS with one word replaced. -/
theorem phys_set (v : Vec c) {k : Nat} (hk : k < c.W) (a : Word c) :
    phys (v.set k a) + v[k].toNat * 2 ^ ((c.W - 1 - k) * c.S) = phys v + a.toNat * 2 ^ ((c.W - 1 - k) * c.S) := by
  have others : ∀ i ∈ ({⟨k, hk⟩} : Finset (Fin c.W))ᶜ, (v.set k a)[i].toNat * 2 ^ ((c.W - 1 - i.val) * c.S) =
      v[i].toNat * 2 ^ ((c.W - 1 - i.val) * c.S) := by
    intro i hi
    have : k ≠ i.val := fun h => by simp [h] at hi
    simp [this]
  rw [phys_eq_word_add (v.set k a) hk, phys_eq_word_add v hk, Finset.sum_congr rfl others, Vector.getElem_set_self]
  omega

theorem toNat_eq_pred_succ {a : Word c} (h : a ≠ 0) : a.toNat = (a - 1).toNat + 1 := by
  have one : (1 : Word c).toNat = 1 := Nat.mod_eq_of_lt (Nat.one_lt_two_pow (Nat.ne_of_gt c.S_pos))
  have pos : 0 < a.toNat := Nat.pos_of_ne_zero fun h0 => h (BitVec.eq_of_toNat_eq (by simpa using h0))
  have le : (1 : Word c) ≤ a := BitVec.le_def.mpr (one.trans_le pos)
  rw [BitVec.toNat_sub_of_le le, one]
  omega

/-- The weight of the word above word `k` in PHYS: a full word `k` and 1 more. -/
theorem word_weight_above {k : Nat} (hk : k < c.W) :
    2 ^ ((c.W - k) * c.S) = (2 ^ c.S - 1) * 2 ^ ((c.W - 1 - k) * c.S) + 2 ^ ((c.W - 1 - k) * c.S) := by
  rw [← Nat.succ_mul, Nat.succ_eq_add_one, Nat.sub_add_cancel Nat.one_le_two_pow, ← Nat.pow_add,
    show c.W - k = c.W - 1 - k + 1 by omega, Nat.succ_mul, Nat.add_comm]

/-- R125: the borrow chain that starts at word `k - 1` takes 1 at the weight of that word. -/
theorem phys_borrowFrom (v : Vec c) (k : Nat) (hk : k ≤ c.W) :
    phys (borrowFrom v k hk) + 2 ^ ((c.W - k) * c.S) ≡ phys v [MOD 2 ^ (c.W * c.S)] := by
  induction k generalizing v with
  | zero => simp [borrowFrom, Nat.ModEq]
  | succ k ih =>
    rw [show c.W - (k + 1) = c.W - 1 - k by omega]
    by_cases hzero : v[k] = 0
    · have wrapped := phys_set v hk (BitVec.allOnes c.S)
      have zero : v[k].toNat = 0 := by simp [hzero]
      rw [zero, BitVec.toNat_allOnes, Nat.zero_mul, Nat.add_zero] at wrapped
      have rest := ih (v.set k (BitVec.allOnes c.S)) (Nat.le_of_succ_le hk)
      rw [borrowFrom_goes_on v k hk hzero]
      refine Nat.ModEq.add_right_cancel' ((2 ^ c.S - 1) * 2 ^ ((c.W - 1 - k) * c.S)) ?_
      rwa [Nat.add_assoc, Nat.add_comm (2 ^ ((c.W - 1 - k) * c.S)), ← word_weight_above hk, ← wrapped]
    · have decreased := phys_set v hk (v[k] - 1)
      rw [toNat_eq_pred_succ hzero, Nat.succ_mul] at decreased
      rw [borrowFrom_stops v k hk hzero, show phys (v.set k (v[k] - 1)) + 2 ^ ((c.W - 1 - k) * c.S) = phys v by omega]

/-- R128: DEC takes 1 from PHYS, modulo `2^(W*S)`. -/
theorem phys_decrementVec (v : Vec c) : phys (decrementVec v) + 1 ≡ phys v [MOD 2 ^ (c.W * c.S)] := by
  simpa [decrementVec] using phys_borrowFrom v c.W (Nat.le_refl _)

/-- R129: DEC takes 1 from VAL, modulo `2^N`. -/
theorem phys_decrementVec_mod (v : Vec c) : phys (decrementVec v) + 1 ≡ phys v [MOD 2 ^ c.N] :=
  (phys_decrementVec v).of_dvd (Nat.pow_dvd_pow 2 c.N_le_W_mul_S)

/-! ### Equal logical values stay equal -/

theorem val_andVec_congr {u u' v v' : Vec c} (hu : val u = val u') (hv : val v = val v') :
    val (andVec u v) = val (andVec u' v') := by
  rw [val_eq_iff_bitAt] at *
  intro pos h
  rw [bitAt_andVec, bitAt_andVec, hu pos h, hv pos h]

/-- An operation that makes each bit from the bit at the same position. -/
theorem val_congr_of_bitwise {op : Vec c → Vec c} {bit : Nat → Bool → Bool}
    (hop : ∀ v pos, pos < c.N → bitAt (op v) pos = bit pos (bitAt v pos)) {u v : Vec c} (h : val u = val v) :
    val (op u) = val (op v) := by
  rw [val_eq_iff_bitAt] at *
  intro pos hpos
  rw [hop u pos hpos, hop v pos hpos, h pos hpos]

theorem val_setBitVec_congr {u v : Vec c} (h : val u = val v) {pos : Nat} (hpos : pos < c.N) :
    val (setBitVec u pos) = val (setBitVec v pos) :=
  val_congr_of_bitwise (op := (setBitVec · pos)) (bit := fun p x => decide (p = pos) || x)
    (fun v _ hp => bitAt_setBitVec v (stored_of_lt_N hpos) (stored_of_lt_N hp)) h

theorem val_unsetBitVec_congr {u v : Vec c} (h : val u = val v) {pos : Nat} (hpos : pos < c.N) :
    val (unsetBitVec u pos) = val (unsetBitVec v pos) :=
  val_congr_of_bitwise (op := (unsetBitVec · pos)) (bit := fun p x => !decide (p = pos) && x)
    (fun v _ hp => bitAt_unsetBitVec v (stored_of_lt_N hpos) (stored_of_lt_N hp)) h

theorem val_shiftLeftVec_congr {u v : Vec c} (h : val u = val v) (n : Nat) :
    val (shiftLeftVec u n) = val (shiftLeftVec v n) := by
  rw [val_eq_iff_bitAt] at *
  intro pos hpos
  have stored := stored_of_lt_N hpos
  rw [bitAt_shiftLeftVec u n stored, bitAt_shiftLeftVec v n stored, h _ ((Nat.sub_le _ _).trans_lt hpos)]

theorem val_decrementVec_congr {u v : Vec c} (h : val u = val v) : val (decrementVec u) = val (decrementVec v) := by
  have before : phys u ≡ phys v [MOD 2 ^ c.N] := h
  exact Nat.ModEq.add_right_cancel' 1
    ((phys_decrementVec_mod u).trans (before.trans (phys_decrementVec_mod v).symm))

theorem testWord_congr {u v : Vec c} (h : val u = val v) {pos : Nat} (hpos : pos < c.N) :
    (testWord u pos).setWidth 16 = (testWord v pos).setWidth 16 := by
  rw [testWord_eq, testWord_eq, val_eq_iff_bitAt.mp h pos hpos]

theorem logicalCount_congr {u v : Vec c} (h : val u = val v) : logicalCount u = logicalCount v := by
  have lower_words : u.toList.tail = v.toList.tail := by
    refine List.ext_getElem (by simp) fun i hu hv => ?_
    have : i + 1 < c.W := by simp at hu; omega
    simpa using word_eq_of_val_eq h this (Nat.succ_pos i)
  rw [logicalCount, logicalCount, top_word_eq_of_val_eq h, lower_words]

end Sys2Proof.Machine

/-! ### No command lets a padding bit out -/

namespace Sys2Proof.Machine

variable {c : Config}

/-- Two effects that show the host the same: they may differ in the padding of the written vector only. -/
inductive Effect.Agree : Effect c → Effect c → Prop where
  | fault (k : Cause) : Agree (.fault k) (.fault k)
  | write (rd : Reg) {u v : Vec c} (h : val u = val v) : Agree (.write rd u) (.write rd v)
  | answer (d : BitVec 16) : Agree (.answer d) (.answer d)

/-- Effects behind the range check need to agree in range only. -/
theorem Effect.Agree.ifInRange {e e' : Effect c} {pos : BitVec 16} (h : pos.toNat < c.N → e.Agree e') :
    (e.ifInRange pos).Agree (e'.ifInRange pos) := by
  obtain hin | hout := Nat.lt_or_ge pos.toNat c.N
  · simpa only [Effect.ifInRange, if_pos hin] using h hin
  · simpa only [Effect.ifInRange, if_neg (Nat.not_lt.mpr hout)] using Agree.fault .posRange

/-- R25: what a command writes and answers depends on the logical values of its operands only. -/
theorem effectOf_agree (i : Instr) {a b : Block c} (h : a.SameLogically b) : (effectOf i a).Agree (effectOf i b) := by
  obtain ⟨hval, -, -, -, hdin, -, -⟩ := h
  cases i with
  | clr rd => exact .write rd rfl
  | ldi rd => exact .write rd (by rw [hdin])
  | ldv rd =>
    simp only [effectOf, hdin]
    split
    · exact .fault .illegalCmd
    · exact .write rd rfl
  | shl rd rs1 pos => exact .write rd (val_shiftLeftVec_congr (hval rs1) pos.toNat)
  | and rd rs1 rs2 => exact .write rd (val_andVec_congr (hval rs1) (hval rs2))
  | dec rd => exact .write rd (val_decrementVec_congr (hval rd))
  | popc rs1 =>
    rw [effectOf, effectOf, logicalCount_congr (hval rs1)]
    exact .answer _
  | test rs1 pos =>
    refine .ifInRange fun hpos => ?_
    rw [testWord_congr (hval rs1) hpos]
    exact .answer _
  | set rd pos => exact .ifInRange fun hpos => .write rd (val_setBitVec_congr (hval rd) hpos)
  | unset rd pos => exact .ifInRange fun hpos => .write rd (val_unsetBitVec_congr (hval rd) hpos)

theorem decodedEffect_agree (x : Decoded) {a b : Block c} (h : a.SameLogically b) :
    (decodedEffect x a).Agree (decodedEffect x b) := by
  cases x with
  | instr i => exact effectOf_agree i h
  | illegal why => exact .fault .illegalCmd

theorem Effect.Agree.apply {e e' : Effect c} (he : e.Agree e') {a b : Block c} (h : a.SameLogically b) :
    (e.apply a).SameLogically (e'.apply b) := by
  obtain ⟨hval, hstat, hfcmd, hcmd, hdin, hqueue, hrsps⟩ := h
  cases he with
  | fault k => exact ⟨hval, rfl, hcmd, hcmd, hdin, hqueue, congrArg (· ++ _) hrsps⟩
  | answer d => exact ⟨hval, hstat, hfcmd, hcmd, hdin, hqueue, congrArg (· ++ _) hrsps⟩
  | write rd hv =>
    refine ⟨fun r => ?_, hstat, hfcmd, hcmd, hdin, hqueue, congrArg (· ++ _) hrsps⟩
    rw [Effect.apply, Effect.apply, Block.readReg_respond, Block.readReg_respond]
    obtain rfl | hne := eq_or_ne r rd
    · rwa [Block.readReg_writeReg_self, Block.readReg_writeReg_self]
    · rw [Block.readReg_writeReg_ne _ hne, Block.readReg_writeReg_ne _ hne, hval]

theorem Block.SameLogically.accept {a b : Block c} (h : a.SameLogically b) (w : BitVec 32) (d : BitVec (c.W * c.S))
    (q : List (HostInput c)) : (a.accept w d q).SameLogically (b.accept w d q) := by
  obtain ⟨hval, hstat, hfcmd, -, -, -, hrsps⟩ := h
  exact ⟨hval, hstat, hfcmd, rfl, rfl, rfl, hrsps⟩

theorem Block.SameLogically.answerFaulted {a b : Block c} (h : a.SameLogically b) :
    a.answerFaulted.SameLogically b.answerFaulted := by
  obtain ⟨hval, hstat, hfcmd, hcmd, hdin, hqueue, hrsps⟩ := h
  refine ⟨hval, hstat, hfcmd, hcmd, hdin, hqueue, ?_⟩
  rw [answerFaulted_rsps, answerFaulted_rsps, hrsps, cause, cause, hstat]

theorem Block.SameLogically.applyReset {a b : Block c} (h : a.SameLogically b) (q : List (HostInput c)) :
    Block.SameLogically { a.applyReset with queue := q } { b.applyReset with queue := q } := by
  obtain ⟨-, -, -, hcmd, hdin, -, hrsps⟩ := h
  exact ⟨fun _ => rfl, rfl, rfl, hcmd, hdin, rfl, hrsps⟩

/-- R25: one step of two blocks that differ in padding bits only. -/
theorem step_sameLogically {a b : Block c} (h : a.SameLogically b) :
    ∃ a' b', step ⟨c, a⟩ = .next ⟨c, a'⟩ ∧ step ⟨c, b⟩ = .next ⟨c, b'⟩ ∧ a'.SameLogically b' := by
  have ⟨_, hstat, _, _, _, hqueue, _⟩ := h
  obtain ⟨hq, -⟩ | ⟨q, hq, -⟩ | ⟨w, d, q, hq, -⟩ := a.nextInput_cases
  · exact ⟨a, b, step_idle hq, step_idle (hqueue ▸ hq), h⟩
  · exact ⟨_, _, step_rst hq, step_rst (hqueue ▸ hq), h.applyReset q⟩
  · have hf : b.faulted = a.faulted := by rw [Block.faulted, Block.faulted, hstat]
    cases ha : a.faulted with
    | true =>
      exact ⟨_, _, step_command_faulted hq ha, step_command_faulted (hqueue ▸ hq) (hf.trans ha),
        (h.accept w d q).answerFaulted⟩
    | false =>
      exact ⟨_, _, step_command_running hq ha, step_command_running (hqueue ▸ hq) (hf.trans ha),
        (decodedEffect_agree _ (h.accept w d q)).apply (h.accept w d q)⟩

end Sys2Proof.Machine

section

open Sys2Proof Sys2Proof.Machine

/-- Settles O59: by induction on the number of steps. Every operation takes equal logical values to equal logical values
and answers, so each step keeps the two blocks logically the same. -/
theorem paddingIsNeverVisible : Obligations.PaddingIsNeverVisible := by
  intro c a b k h
  induction k generalizing a b with
  | zero => exact ⟨a, b, rfl, rfl, h⟩
  | succ k ih =>
    obtain ⟨a₁, b₁, ha, hb, h₁⟩ := step_sameLogically h
    obtain ⟨a', b', ha', hb', h'⟩ := ih a₁ b₁ h₁
    exact ⟨a', b', (runSteps_succ k ha).trans ha', (runSteps_succ k hb).trans hb', h'⟩

end

/-! ## 20_memory.md: the order of the inputs, of the steps that take them, and of the responses -/

/-! ### What a run of several steps takes and answers -/

namespace Sys2Proof.Machine

variable {c : Config}

theorem commandCount_append (q q' : List (HostInput c)) : commandCount (q ++ q') = commandCount q + commandCount q' :=
  List.countP_append

/-- `b'` has taken the first `k` inputs of `b` and answered each command among them once, after the responses of `b`. -/
def Block.Serves (b : Block c) (k : Nat) (b' : Block c) : Prop :=
  b'.queue = b.queue.drop k ∧
    ∃ answers, b'.rsps = b.rsps ++ answers ∧ answers.length = commandCount (b.queue.take k)

theorem Block.Serves.refl (b : Block c) : b.Serves 0 b := ⟨rfl, [], (List.append_nil _).symm, rfl⟩

/-- The next `m` inputs are those after the first `k`, and their answers follow the answers to these. -/
theorem Block.Serves.trans {b b₁ b₂ : Block c} {k m : Nat} (h₁ : b.Serves k b₁) (h₂ : b₁.Serves m b₂) :
    b.Serves (k + m) b₂ := by
  obtain ⟨hqueue₁, early, hrsps₁, hearly⟩ := h₁
  obtain ⟨hqueue₂, late, hrsps₂, hlate⟩ := h₂
  refine ⟨by rw [hqueue₂, hqueue₁, List.drop_drop], early ++ late, by rw [hrsps₂, hrsps₁, List.append_assoc], ?_⟩
  rw [List.length_append, hearly, hlate, hqueue₁, List.take_add, commandCount_append]

/-- R204: a step takes one input; with none left it takes and answers nothing. -/
theorem step_serves (b : Block c) : ∃ b', step ⟨c, b⟩ = .next ⟨c, b'⟩ ∧ b.Serves 1 b' := by
  obtain ⟨b', hstep, hidle, hrst, hcommand⟩ := oneResponsePerCommand c b
  refine ⟨b', hstep, ?_⟩
  match hq : b.queue with
  | [] =>
    cases hidle hq
    exact ⟨by simp [hq], [], by simp, by simp [hq, commandCount]⟩
  | .rst :: q =>
    obtain ⟨hqueue, hrsps⟩ := hrst q hq
    exact ⟨by simp [hq, hqueue], [], by simp [hrsps], by simp [hq, commandCount]⟩
  | .command w d :: q =>
    obtain ⟨hqueue, -, -, r, hrsps⟩ := hcommand w d q hq
    exact ⟨by simp [hq, hqueue], [r], hrsps, by simp [hq, commandCount]⟩

/-- A run goes on from the state its first `k` steps reach. -/
theorem runSteps_add {k : Nat} (m : Nat) {s s' : State} (h : runSteps k s = .next s') :
    runSteps (k + m) s = runSteps m s' := by
  induction k generalizing s with
  | zero =>
    cases h
    rw [Nat.zero_add]
  | succ k ih =>
    obtain ⟨b₁, hstep, -⟩ := step_serves s.block
    rw [Nat.succ_add, runSteps_succ _ hstep]
    exact ih ((runSteps_succ k hstep).symm.trans h)

/-- R211: a run of `k` steps serves the first `k` inputs. -/
theorem runSteps_serves (k : Nat) (b : Block c) : ∃ b', runSteps k ⟨c, b⟩ = .next ⟨c, b'⟩ ∧ b.Serves k b' := by
  induction k generalizing b with
  | zero => exact ⟨b, rfl, .refl b⟩
  | succ k ih =>
    obtain ⟨b₁, hstep, h₁⟩ := step_serves b
    obtain ⟨b', hrun, h'⟩ := ih b₁
    exact ⟨b', (runSteps_succ k hstep).trans hrun, Nat.add_comm 1 k ▸ h₁.trans h'⟩

/-! ### What a step does with the inputs it does not take -/

/-- No command reads the inputs that come after it. -/
theorem effectOf_queue_irrel (i : Instr) (b : Block c) (q : List (HostInput c)) :
    effectOf i { b with queue := q } = effectOf i b := by
  cases i <;> rfl

theorem decodedEffect_queue_irrel (x : Decoded) (b : Block c) (q : List (HostInput c)) :
    decodedEffect x { b with queue := q } = decodedEffect x b := by
  cases x with
  | instr i => exact effectOf_queue_irrel i b q
  | illegal why => rfl

/-- An effect leaves the inputs to come as they are and does the same before any of them. -/
theorem Effect.apply_queue (e : Effect c) (b : Block c) (q : List (HostInput c)) :
    e.apply { b with queue := q } = { e.apply b with queue := q } := by
  cases e <;> rfl

/-- R49: the next input alone decides to what block a step leads; the inputs after it are left to come. -/
theorem exists_step_of_next_input (b : Block c) (x : HostInput c) :
    ∃ after : Block c, ∀ q, step ⟨c, { b with queue := x :: q }⟩ = .next ⟨c, { after with queue := q }⟩ := by
  cases x with
  | rst => exact ⟨b.applyReset, fun q => step_rst rfl⟩
  | command w d =>
    cases hf : b.faulted with
    | true => exact ⟨(b.accept w d []).answerFaulted, fun q => step_command_faulted rfl hf⟩
    | false =>
      refine ⟨(decodedEffect (decode c w) (b.accept w d [])).apply (b.accept w d []), fun q => ?_⟩
      rw [← Effect.apply_queue, ← decodedEffect_queue_irrel _ _ q]
      exact step_command_running rfl hf

end Sys2Proof.Machine

section

open Sys2Proof Sys2Proof.Machine

/-- Settles O25: by induction on the steps each run serves as many inputs as it has steps, and a run of `k + m` steps is
one of `k` steps and one of `m` steps from where that ends. -/
theorem runAnswersEveryCommand : Obligations.RunAnswersEveryCommand := by
  refine fun c b => ⟨?_, fun k m => ?_⟩
  · obtain ⟨b', hrun, hqueue, answers, hrsps, hcount⟩ := runSteps_serves b.queue.length b
    exact ⟨b', answers, hrun, hqueue.trans List.drop_length, hrsps, by rw [hcount, List.take_length]⟩
  · obtain ⟨b₁, hrun₁, hqueue₁, early, hrsps₁, hearly⟩ := runSteps_serves k b
    obtain ⟨b₂, hrun₂, hqueue₂, late, hrsps₂, hlate⟩ := runSteps_serves m b₁
    exact ⟨b₁, b₂, early, late, hrun₁, (runSteps_add m hrun₁).trans hrun₂, hqueue₁,
      by rw [hqueue₂, hqueue₁, List.drop_drop], hrsps₁, hearly, by rw [hrsps₂, hrsps₁], by rw [hlate, hqueue₁]⟩

/-- Settles O26: the next input determines the block after the step up to its inputs, and those are the later ones. -/
theorem stepIgnoresLaterInputs : Obligations.StepIgnoresLaterInputs := by
  intro c b b' x later later' h
  obtain ⟨after, hstep⟩ := exists_step_of_next_input b x
  cases next_block_inj ((hstep later).symm.trans h)
  exact ⟨rfl, hstep later'⟩

end

/-! ## 30_encoding.md: command words, their decoder and encoder, and the checks of a step -/

/-! ### The fields of a word -/

namespace Sys2Proof

section

variable (op : BitVec 4) (rd rs1 rs2 : BitVec 2) (zero : BitVec 6) (pos : BitVec 16)

/-- The width 32 of a command word as the sum of the widths of its fields, so that the laws of `++` apply. -/
theorem extractLsb'_commandWord (start len : Nat) :
    (commandWord op rd rs1 rs2 zero pos).extractLsb' start len =
      (op ++ rd ++ rs1 ++ rs2 ++ zero ++ pos).extractLsb' start len := rfl

@[simp] theorem opField_commandWord : opField (commandWord op rd rs1 rs2 zero pos) = op := by
  simp (disch := decide) only [opField, extractLsb'_commandWord, BitVec.extractLsb'_append_eq_of_le,
    Nat.reduceSub, BitVec.extractLsb'_eq_self]

@[simp] theorem rdField_commandWord : rdField (commandWord op rd rs1 rs2 zero pos) = rd := by
  simp (disch := decide) only [rdField, extractLsb'_commandWord, BitVec.extractLsb'_append_eq_of_le,
    BitVec.extractLsb'_append_eq_of_add_le, Nat.reduceSub, BitVec.extractLsb'_eq_self]

@[simp] theorem rs1Field_commandWord : rs1Field (commandWord op rd rs1 rs2 zero pos) = rs1 := by
  simp (disch := decide) only [rs1Field, extractLsb'_commandWord, BitVec.extractLsb'_append_eq_of_le,
    BitVec.extractLsb'_append_eq_of_add_le, Nat.reduceSub, BitVec.extractLsb'_eq_self]

@[simp] theorem rs2Field_commandWord : rs2Field (commandWord op rd rs1 rs2 zero pos) = rs2 := by
  simp (disch := decide) only [rs2Field, extractLsb'_commandWord, BitVec.extractLsb'_append_eq_of_le,
    BitVec.extractLsb'_append_eq_of_add_le, Nat.reduceSub, BitVec.extractLsb'_eq_self]

@[simp] theorem zeroField_commandWord : zeroField (commandWord op rd rs1 rs2 zero pos) = zero := by
  simp (disch := decide) only [zeroField, extractLsb'_commandWord, BitVec.extractLsb'_append_eq_of_le,
    BitVec.extractLsb'_append_eq_of_add_le, Nat.reduceSub, BitVec.extractLsb'_eq_self]

@[simp] theorem posField_commandWord : posField (commandWord op rd rs1 rs2 zero pos) = pos := by
  simp (disch := decide) only [posField, extractLsb'_commandWord, BitVec.extractLsb'_append_eq_of_add_le,
    BitVec.extractLsb'_eq_self]

end

/-- R61: a word is made of its six fields. -/
theorem commandWord_fields (w : BitVec 32) :
    commandWord (opField w) (rdField w) (rs1Field w) (rs2Field w) (zeroField w) (posField w) = w := by
  have whole : opField w ++ rdField w ++ rs1Field w ++ rs2Field w ++ zeroField w ++ posField w =
      w.extractLsb' 0 (4 + 2 + 2 + 2 + 6 + 16) := by
    simp only [opField, rdField, rs1Field, rs2Field, zeroField, posField,
      BitVec.extractLsb'_append_extractLsb'_eq_extractLsb']
  exact whole.trans BitVec.extractLsb'_eq_self

theorem commandWord_inj {op op' : BitVec 4} {rd rs1 rs2 rd' rs1' rs2' : BitVec 2} {zero zero' : BitVec 6}
    {pos pos' : BitVec 16} :
    commandWord op rd rs1 rs2 zero pos = commandWord op' rd' rs1' rs2' zero' pos' ↔
      op = op' ∧ rd = rd' ∧ rs1 = rs1' ∧ rs2 = rs2' ∧ zero = zero' ∧ pos = pos' := by
  refine ⟨fun h => ?_, fun ⟨hop, hrd, hrs1, hrs2, hzero, hpos⟩ => by rw [hop, hrd, hrs1, hrs2, hzero, hpos]⟩
  have fields := congrArg (fun w => (opField w, rdField w, rs1Field w, rs2Field w, zeroField w, posField w)) h
  simpa using fields

@[simp] theorem regOfBits_bitsOfReg (r : Reg) : regOfBits (bitsOfReg r) = r := rfl

@[simp] theorem bitsOfReg_regOfBits (b : BitVec 2) : bitsOfReg (regOfBits b) = b := rfl

end Sys2Proof

/-! ### The rows of the match and mask table -/

namespace Sys2Proof

open Laws.EncodesItsRow (commandWord_and)
open Machine (spellsCommand)

theorem OpcodeRow.holds_iff (r : OpcodeRow) (w : BitVec 32) : r.holds w = true ↔ w &&& r.mask = r.pattern := beq_iff_eq

/-- The mask over a field: none of its bits when the command uses it, all of them when it must be zero. -/
def fieldMask (n : Nat) (used : Prop) [Decidable used] : BitVec n := if used then 0 else BitVec.allOnes n

theorem and_fieldMask_eq_zero {n : Nat} {used : Prop} [Decidable used] (a : BitVec n) :
    a &&& fieldMask n used = 0 ↔ a = 0 ∨ used := by
  by_cases h : used <;> simp [fieldMask, h]

/-- R65, R66: the mask of an opcode's row, from the fields that the opcode table says the command uses. -/
def maskOfOpcode (op : BitVec 4) : BitVec 32 :=
  commandWord (BitVec.allOnes 4)
    (fieldMask 2 (op ∈ [0x1#4, 0x2#4, 0x3#4, 0x4#4, 0x5#4, 0x6#4, 0x9#4, 0xA#4]))
    (fieldMask 2 (op ∈ [0x4#4, 0x5#4, 0x7#4, 0x8#4]))
    (fieldMask 2 (op ∈ [0x5#4]))
    (BitVec.allOnes 6)
    (fieldMask 16 (op ∈ [0x4#4, 0x8#4, 0x9#4, 0xA#4]))

/-- R65: the opcode of each command. -/
def opcodeOf : Mnemonic → BitVec 4
  | .clr => 0x1
  | .ldi => 0x2
  | .ldv => 0x3
  | .shl => 0x4
  | .and => 0x5
  | .dec => 0x6
  | .popc => 0x7
  | .test => 0x8
  | .set => 0x9
  | .unset => 0xA

/-- R66: the match of every row is its opcode and zeros, and its mask is that of the opcode. -/
theorem pattern_mask_of_mem_opcodeRows : ∀ r ∈ opcodeRows,
    r.pattern = commandWord (opcodeOf r.mnemonic) 0 0 0 0 0 ∧ r.mask = maskOfOpcode (opcodeOf r.mnemonic) := by
  decide

/-- R66: "the `op` nibbles differ". -/
theorem opcodeRow_eq_of_opcodeOf_eq : ∀ r ∈ opcodeRows, ∀ r' ∈ opcodeRows,
    opcodeOf r.mnemonic = opcodeOf r'.mnemonic → r = r' := by
  decide

/-- R65: every opcode from 0x1 to 0xA has a row. -/
theorem exists_row_of_opcode : ∀ op : BitVec 4, 1 ≤ op.toNat ∧ op.toNat ≤ 10 →
    ∃ r ∈ opcodeRows, opcodeOf r.mnemonic = op := by
  decide

/-- R65: no command has a reserved opcode. -/
theorem opcodeOf_bounds (m : Mnemonic) : 1 ≤ (opcodeOf m).toNat ∧ (opcodeOf m).toNat ≤ 10 := by
  cases m <;> decide

/-- R66, R68: a row holds of a word that has its opcode and 0 in every field that must be zero. -/
theorem holds_iff_spellsCommand {r : OpcodeRow} (hr : r ∈ opcodeRows) (w : BitVec 32) :
    r.holds w = true ↔ opField w = opcodeOf r.mnemonic ∧ spellsCommand w := by
  obtain ⟨hpattern, hmask⟩ := pattern_mask_of_mem_opcodeRows r hr
  obtain ⟨hge, hle⟩ := opcodeOf_bounds r.mnemonic
  rw [r.holds_iff, hmask, hpattern, ← commandWord_fields w, maskOfOpcode, commandWord_and, commandWord_inj]
  simp only [and_fieldMask_eq_zero, BitVec.and_allOnes, commandWord_fields]
  refine and_congr_right fun hop => ?_
  rw [spellsCommand, hop]
  tauto

/-- R68: some row holds of the words that spell a command. -/
theorem exists_row_holds_iff (w : BitVec 32) : (∃ r ∈ opcodeRows, r.holds w = true) ↔ spellsCommand w := by
  constructor
  · rintro ⟨r, hr, h⟩
    exact ((holds_iff_spellsCommand hr w).mp h).2
  · intro h
    obtain ⟨hge, hle, -⟩ := id h
    obtain ⟨r, hr, hop⟩ := exists_row_of_opcode (opField w) ⟨hge, hle⟩
    exact ⟨r, hr, (holds_iff_spellsCommand hr w).mpr ⟨hop.symm, h⟩⟩

/-- R66: at most one row holds of a word. -/
theorem opcodeRow_unique {w : BitVec 32} {r r' : OpcodeRow} (hr : r ∈ opcodeRows) (hr' : r' ∈ opcodeRows)
    (h : r.holds w = true) (h' : r'.holds w = true) : r = r' := by
  obtain ⟨hop, -⟩ := (holds_iff_spellsCommand hr w).mp h
  obtain ⟨hop', -⟩ := (holds_iff_spellsCommand hr' w).mp h'
  exact opcodeRow_eq_of_opcodeOf_eq r hr r' hr' (hop.symm.trans hop')

end Sys2Proof

/-! ### The decoder and the encoder -/

namespace Sys2Proof

open Laws.EncodesItsRow (rowOf)
open Machine (spellsCommand)

/-- R67: what a word decodes to is decided by the row that holds of it. -/
theorem decode_of_holds (c : Config) {r : OpcodeRow} (hr : r ∈ opcodeRows) {w : BitVec 32} (h : r.holds w = true) :
    decode c w = if r.mnemonic = .ldv ∧ c.W = 1 then .illegal .ldvInOneWordBlock
      else .instr (instrOfRow r.mnemonic w) := by
  have found : opcodeRows.find? (fun r => r.holds w) = some r := by
    have isSome : (opcodeRows.find? fun r => r.holds w).isSome := List.find?_isSome.mpr ⟨r, hr, h⟩
    obtain ⟨r', hfind⟩ := Option.isSome_iff_exists.mp isSome
    have holds' : r'.holds w = true := List.find?_some (p := fun r : OpcodeRow => r.holds w) hfind
    rw [hfind, opcodeRow_unique hr (List.mem_of_find?_eq_some hfind) h holds']
  rw [decode, found]

/-- R68: a word that spells no command decodes to Illegal. -/
theorem decode_of_not_spellsCommand (c : Config) {w : BitVec 32} (h : ¬ spellsCommand w) :
    ∃ why, decode c w = .illegal why := by
  have none_holds : opcodeRows.find? (fun r => r.holds w) = none :=
    List.find?_eq_none.mpr fun r hr hholds => h ((holds_iff_spellsCommand hr w).mp hholds).2
  rw [decode, none_holds]
  exact ⟨_, rfl⟩

/-- R66: the word of every command matches the row of the command. -/
theorem rowOf_holds_encode (i : Instr) : rowOf i ∈ opcodeRows ∧ (rowOf i).holds (encode i) = true := by
  cases i with
  | clr rd => exact Laws.EncodesItsRow.clr rd
  | ldi rd => exact Laws.EncodesItsRow.ldi rd
  | ldv rd => exact Laws.EncodesItsRow.ldv rd
  | shl rd rs1 pos => exact Laws.EncodesItsRow.shl rd rs1 pos
  | and rd rs1 rs2 => exact Laws.EncodesItsRow.and rd rs1 rs2
  | dec rd => exact Laws.EncodesItsRow.dec rd
  | popc rs1 => exact Laws.EncodesItsRow.popc rs1
  | test rs1 pos => exact Laws.EncodesItsRow.test rs1 pos
  | set rd pos => exact Laws.EncodesItsRow.set rd pos
  | unset rd pos => exact Laws.EncodesItsRow.unset rd pos

/-- R61, R67: the operands stand in the word in the fields they are read from. -/
theorem instrOfRow_encode (i : Instr) : instrOfRow (rowOf i).mnemonic (encode i) = i := by
  cases i <;> simp [rowOf, instrOfRow, encode]

/-- R69: a command exists in a block unless it is LDV and `W = 1`. -/
theorem wellFormed_iff (c : Config) (i : Instr) :
    i.wellFormed c = true ↔ ¬ ((rowOf i).mnemonic = .ldv ∧ c.W = 1) := by
  cases i with
  | ldv rd =>
    have more_words : 1 < c.W ↔ c.W ≠ 1 := by have := c.W_pos; omega
    simpa [Instr.wellFormed, rowOf] using more_words
  | clr | ldi | shl | and | dec | popc | test | set | unset => simp [Instr.wellFormed, rowOf]

theorem decode_encode (c : Config) (i : Instr) :
    decode c (encode i) = if i.wellFormed c then .instr i else .illegal .ldvInOneWordBlock := by
  obtain ⟨hr, hholds⟩ := rowOf_holds_encode i
  rw [decode_of_holds c hr hholds, instrOfRow_encode]
  simp only [wellFormed_iff, ite_not]

theorem decode_encode_of_wellFormed {c : Config} {i : Instr} (h : i.wellFormed c = true) :
    decode c (encode i) = .instr i := by
  rw [decode_encode, if_pos h]

/-- R69: the LDV word in a block of one word. -/
theorem decode_encode_ldv_one_word {c : Config} (h : c.W = 1) (rd : Reg) :
    decode c (encode (.ldv rd)) = .illegal .ldvInOneWordBlock := by
  rw [decode_encode, if_neg]
  simp [wellFormed_iff, rowOf, h]

/-- The command read from a word has the mnemonic of its row. -/
theorem rowOf_instrOfRow_mnemonic (m : Mnemonic) (w : BitVec 32) : (rowOf (instrOfRow m w)).mnemonic = m := by
  cases m <;> rfl

/-- R61, R66: a word that spells a command is put together again from the operands read from it. -/
theorem encode_instrOfRow {m : Mnemonic} {w : BitVec 32} (hop : opField w = opcodeOf m) (h : spellsCommand w) :
    encode (instrOfRow m w) = w := by
  obtain ⟨-, -, hzero, hrd, hrs1, hrs2, hpos⟩ := h
  rw [hop] at hrd hrs1 hrs2 hpos
  conv_rhs => rw [← commandWord_fields w, hop, hzero]
  cases m <;> simp_all [opcodeOf, instrOfRow, encode]

/-- R66, R67, R69: the words that decode to a command are its own word in the blocks where it exists. -/
theorem decode_eq_instr_iff {c : Config} {w : BitVec 32} {i : Instr} :
    decode c w = .instr i ↔ encode i = w ∧ i.wellFormed c = true := by
  refine ⟨fun h => ?_, fun ⟨hw, hi⟩ => hw ▸ decode_encode_of_wellFormed hi⟩
  by_cases hw : spellsCommand w
  · obtain ⟨r, hr, hholds⟩ := (exists_row_holds_iff w).mpr hw
    obtain ⟨hop, -⟩ := (holds_iff_spellsCommand hr w).mp hholds
    rw [decode_of_holds c hr hholds] at h
    split at h
    · cases h
    · next hldv =>
      cases h
      exact ⟨encode_instrOfRow hop hw, (wellFormed_iff c _).mpr (by rwa [rowOf_instrOfRow_mnemonic])⟩
  · obtain ⟨why, hillegal⟩ := decode_of_not_spellsCommand c hw
    cases hillegal.symm.trans h

end Sys2Proof

section

open Sys2Proof Sys2Proof.Machine

/-- Settles O6: the mask of a row covers the opcode, so a word's row is the one row of its opcode. -/
theorem opcodeRowsAreDisjoint : Obligations.OpcodeRowsAreDisjoint :=
  ⟨rfl, OpcodeRow.holds_iff, fun _ _ hr _ hr' => opcodeRow_unique hr hr'⟩

/-- Settles O7: the word of a command matches its row and no other, and its fields hold the operands. -/
theorem decodeInvertsEncode : Obligations.DecodeInvertsEncode :=
  fun _ _ h => decode_encode_of_wellFormed h

/-- Settles O8: the fields that the command does not keep are 0 in a word that matches its row. -/
theorem encodeInvertsDecode : Obligations.EncodeInvertsDecode :=
  fun _ _ _ h => decode_eq_instr_iff.mp h

/-- Settles O11: each word is that of its command, or spells none. -/
theorem specWordsDecodeAsListed : Obligations.SpecWordsDecodeAsListed := by
  intro c
  have reads {w : BitVec 32} {i : Instr} (hw : encode i = w) (hi : i.wellFormed c = true) : decode c w = .instr i :=
    decode_eq_instr_iff.mpr ⟨hw, hi⟩
  have ldv_word : encode (.ldv 0) = 0x30000000#32 := rfl
  exact ⟨reads rfl rfl, reads rfl rfl, fun hW => reads rfl (decide_eq_true hW),
    fun hW => ldv_word ▸ ⟨_, decode_encode_ldv_one_word hW 0⟩,
    reads rfl rfl, reads rfl rfl, reads rfl rfl, reads rfl rfl, reads rfl rfl, reads rfl rfl, reads rfl rfl,
    decode_of_not_spellsCommand c (by decide), decode_of_not_spellsCommand c (by decide)⟩

end

/-! ### The checks of a step -/

namespace Sys2Proof.Machine

variable {c : Config}

@[simp] theorem Block.accept_issue (b : Block c) (w : BitVec 32) (d : BitVec (c.W * c.S)) (q : List (HostInput c)) :
    (b.issue w d).accept w d q = b.accept w d q := rfl

/-- R174: a step whose command word takes a fault. -/
theorem step_faultEntry {b : Block c} (hf : b.faulted = false) (w : BitVec 32) (d : BitVec (c.W * c.S)) {k : Cause}
    (h : decodedEffect (decode c w) (b.accept w d b.queue) = .fault k) :
    ∃ b', step ⟨c, b.issue w d⟩ = .next ⟨c, b'⟩ ∧ b.FaultEntry b' w (causeCode k) := by
  refine ⟨(b.accept w d b.queue).takeFault k, ?_, (b.accept w d b.queue).takeFault_faultEntry k⟩
  rw [step_command_running (b.issue_queue w d) hf, b.accept_issue, h, Effect.apply]

/-- R68: an illegal word raises ILLEGAL_CMD. -/
theorem step_illegal_faultEntry {b : Block c} (hf : b.faulted = false) {w : BitVec 32} {why : IllegalReason}
    (h : decode c w = .illegal why) (d : BitVec (c.W * c.S)) :
    ∃ b', step ⟨c, b.issue w d⟩ = .next ⟨c, b'⟩ ∧ b.FaultEntry b' w 1 :=
  step_faultEntry (k := .illegalCmd) hf w d (by rw [h]; rfl)

/-- R151: a command that names a position at or above `N` takes the fault. -/
theorem effectOf_eq_fault_of_out_of_range {i : Instr} {pos : BitVec 16} (hpos : positionOf i = some pos)
    (hout : c.N ≤ pos.toNat) (b : Block c) : effectOf i b = .fault .posRange := by
  cases i with
  | test | set | unset =>
    cases hpos
    exact if_neg (Nat.not_lt.mpr hout)
  | clr | ldi | ldv | shl | and | dec | popc => cases hpos

/-- R74 (4): a decoded command that passed the checks takes no fault. -/
theorem effectOf_ne_fault {w : BitVec 32} {i : Instr} (hd : decode c w = .instr i)
    (hin : ∀ pos, positionOf i = some pos → pos.toNat < c.N) (b : Block c) (k : Cause) :
    effectOf i b ≠ .fault k := by
  intro h
  obtain ⟨-, hW, rd, rfl⟩ | ⟨-, pos, hpos, hout⟩ := reason_of_effectOf_eq_fault h
  · exact W_ne_one_of_decode_eq_ldv hd hW
  · exact Nat.not_lt.mpr hout (hin pos hpos)

/-- R64: an effect that is no fault completes the command. -/
theorem Effect.apply_completesWith {e : Effect c} (he : ∀ k, e ≠ .fault k) (b : Block c) :
    ∃ x, b.CompletesWith (e.apply b) x := by
  cases e with
  | fault k => exact absurd rfl (he k)
  | write rd v => exact ⟨0, rfl, rfl, rfl, rfl, rfl, rfl⟩
  | answer d => exact ⟨d, rfl, rfl, rfl, rfl, rfl, rfl⟩

/-- R73: a shift by 0 copies every word. -/
@[simp] theorem shiftLeftVec_zero (v : Vec c) : shiftLeftVec v 0 = v := by
  refine Vector.ext fun i hi => ?_
  rw [shiftLeftVec_word, shiftedWord_eq v i (Nat.zero_div _) (Nat.zero_mod _)]
  simp [hi]

@[simp] theorem Block.writeReg_readReg (b : Block c) (r : Reg) : b.writeReg r (b.readReg r) = b := by
  simp [writeReg, readReg]

/-- R73: MOV in a running block. -/
theorem exec_pseudoMov {b : Block c} (hf : b.faulted = false) (vd vs : Reg) :
    exec (pseudoMov vd vs) ⟨c, b⟩ = .next ⟨c, (b.writeReg vd (b.readReg vs)).respond 0⟩ := by
  rw [pseudoMov, exec_running _ hf]
  simp [effectOf, Effect.apply]

/-- R73: NOP in a running block. -/
theorem exec_pseudoNop {b : Block c} (hf : b.faulted = false) : exec pseudoNop ⟨c, b⟩ = .next ⟨c, b.respond 0⟩ := by
  have mov : pseudoNop = pseudoMov 0 0 := rfl
  rw [mov, exec_pseudoMov hf, b.writeReg_readReg]

end Sys2Proof.Machine

section

open Sys2Proof Sys2Proof.Machine

/-- Settles O9: a row holds of exactly the words that spell a command, so the decoder answers Illegal to every other. -/
theorem unmatchedWordsAreIllegal : Obligations.UnmatchedWordsAreIllegal := by
  refine ⟨exists_row_holds_iff, by decide, by decide, fun w hop hw => ?_, fun c b w d hf hw => ?_⟩
  · obtain ⟨hge, hle, -⟩ := hw
    omega
  · obtain ⟨why, hillegal⟩ := decode_of_not_spellsCommand c hw
    exact step_illegal_faultEntry hf hillegal d

/-- Settles O10: the word is LDV's, which is well-formed exactly when `W` is not 1. -/
theorem ldvIsIllegalInOneWordBlocks : Obligations.LdvIsIllegalInOneWordBlocks := by
  intro c rd
  have word : 0x30000000#32 ||| placed rd 26 = encode (.ldv rd) := by revert rd; decide
  rw [word]
  exact ⟨fun hW b d hf => step_illegal_faultEntry hf (decode_encode_ldv_one_word hW rd) d,
    fun hW => decode_encode_of_wellFormed (decide_eq_true hW)⟩

/-- Settles O12: a shift by 0 writes the source vector, and `v0` over itself changes nothing. -/
theorem pseudoCommandsExpandExactly : Obligations.PseudoCommandsExpandExactly := by
  refine ⟨fun _ _ => rfl, rfl, fun _ _ => ⟨rfl, rfl⟩, fun _ _ => rfl, fun c b hf => ⟨fun vd vs => ?_, ?_⟩⟩
  · exact ⟨_, exec_pseudoMov hf vd vs, b.readReg_writeReg_self vd _, fun r hr => b.readReg_writeReg_ne hr _,
      rfl, rfl, rfl, rfl, rfl, rfl⟩
  · exact ⟨_, exec_pseudoNop hf, rfl, rfl, rfl, rfl, rfl, rfl, rfl⟩

/-- Settles O13: the host's next input is the word, which decodes to the command. -/
theorem stepRunsTheDecodedCommand : Obligations.StepRunsTheDecodedCommand :=
  fun _ b w d _ h => step_command (b.issue_queue w d) h

/-- Settles O14: in a running block the step applies the effect of the word, which is a fault of the first check that
fails, or else an answer that completes the command. -/
theorem stepChecksInOrder : Obligations.StepChecksInOrder := by
  intro c b w d
  have queued := b.issue_queue w d
  refine ⟨fun hf => ?_, fun hf ⟨_, hillegal⟩ => step_illegal_faultEntry hf hillegal d, fun hf i pos hd hpos hout => ?_,
    fun hf i hd hin => ?_⟩
  · exact ⟨_, step_command_faulted queued hf, (b.accept w d b.queue).answerFaulted_turnedAway⟩
  · refine step_faultEntry (k := .posRange) hf w d ?_
    rw [hd]
    exact effectOf_eq_fault_of_out_of_range hpos hout _
  · have hexec := exec_running i (b := b.accept w d b.queue) hf
    obtain ⟨x, hx⟩ := Effect.apply_completesWith (effectOf_ne_fault hd hin _) (b.accept w d b.queue)
    exact ⟨_, x, hexec, (step_command queued hd).trans hexec, hx⟩

end

/-! ## 40_construct.md: CLR, LDI and LDV -/

/-! ### The word of a command that takes `rd` alone -/

namespace Sys2Proof

open Machine (spellsCommand placed)

/-- R72: such a word is its opcode and the register number placed at bit 26. -/
theorem commandWord_rd (op : BitVec 4) (rd : Reg) :
    commandWord op (bitsOfReg rd) 0 0 0 0 = commandWord op 0 0 0 0 0 ||| placed rd 26 := by
  revert op rd
  decide

/-- R68: CLR, LDI, LDV and DEC use no field but `rd`, so every other must be zero. -/
theorem other_fields_eq_zero_of_spellsCommand {w : BitVec 32} (h : spellsCommand w)
    (hop : opField w ∈ [0x1#4, 0x2#4, 0x3#4, 0x6#4]) :
    rs1Field w = 0 ∧ rs2Field w = 0 ∧ zeroField w = 0 ∧ posField w = 0 := by
  have unused : ∀ op ∈ [0x1#4, 0x2#4, 0x3#4, 0x6#4],
      op ∉ [0x4#4, 0x5#4, 0x7#4, 0x8#4] ∧ op ∉ [0x5#4] ∧ op ∉ [0x4#4, 0x8#4, 0x9#4, 0xA#4] := by decide
  obtain ⟨no_rs1, no_rs2, no_pos⟩ := unused _ hop
  obtain ⟨-, -, hzero, -, hrs1, hrs2, hpos⟩ := h
  exact ⟨hrs1.resolve_right no_rs1, hrs2.resolve_right no_rs2, hzero, hpos.resolve_right no_pos⟩

/-- R68: a 1 in any other field than `rd` is illegal. -/
theorem decode_of_other_field_ne_zero (c : Config) {w : BitVec 32} (hop : opField w ∈ [0x1#4, 0x2#4, 0x3#4, 0x6#4])
    (h : rs1Field w ≠ 0 ∨ rs2Field w ≠ 0 ∨ zeroField w ≠ 0 ∨ posField w ≠ 0) : ∃ why, decode c w = .illegal why := by
  refine decode_of_not_spellsCommand c fun hw => ?_
  have := other_fields_eq_zero_of_spellsCommand hw hop
  tauto

/-- R69: in a block of one word no word of LDV's opcode is a command. -/
theorem decode_ldv_opcode_one_word {c : Config} (hW : c.W = 1) {w : BitVec 32} (hop : opField w = 0x3) :
    ∃ why, decode c w = .illegal why := by
  by_cases hw : spellsCommand w
  · have word : encode (.ldv (regOfBits (rdField w))) = w := encode_instrOfRow (m := .ldv) hop hw
    exact ⟨_, word ▸ decode_encode_ldv_one_word hW _⟩
  · exact decode_of_not_spellsCommand c hw

end Sys2Proof

/-! ### The vectors of CLR, LDI and LDV as numbers -/

namespace Sys2Proof.Machine

variable {c : Config}

@[simp] theorem phys_zeroVec (c : Config) : phys (zeroVec c) = 0 := by simp [phys]

/-- R91: the last word has weight 1, and every other word is 0. -/
@[simp] theorem phys_lastWordVec (x : Word c) : phys (lastWordVec x) = x.toNat := by
  have last : c.W - 1 < c.W := Nat.sub_one_lt_of_lt c.W_pos
  rw [phys_eq_word_add _ last, lastWordVec_word, if_pos rfl, Nat.sub_self, Nat.zero_mul, Nat.pow_zero, Nat.mul_one,
    Nat.add_eq_left]
  refine Finset.sum_eq_zero fun i hi => ?_
  have : i.val ≠ c.W - 1 := fun h => by simp [Fin.ext_iff, h] at hi
  simp [this]

/-- R63: LDI takes the low `S` bits of data-in. -/
theorem toNat_dinLow (din : BitVec (c.W * c.S)) : (dinLow c din).toNat = din.toNat % 2 ^ c.S := by
  rw [dinLow, BitVec.extractLsb'_toNat, Nat.shiftRight_zero]

/-- R43, R92: LDV puts bit `pos` of data-in at position `pos`. -/
theorem bitAt_dinVec (din : BitVec (c.W * c.S)) {pos : Nat} (h : pos < c.W * c.S) :
    bitAt (dinVec din) pos = din.getLsbD pos := by
  rw [bitAt, selectWord, dinVec_word, dinWord, BitVec.getLsbD_extractLsb', position_of_index_offset h,
    decide_eq_true (bitOffsetFor_lt c pos), Bool.true_and]

/-- R92: the stored number is data-in itself. -/
@[simp] theorem phys_dinVec (din : BitVec (c.W * c.S)) : phys (dinVec din) = din.toNat := by
  refine Nat.eq_of_testBit_eq fun pos => ?_
  rw [BitVec.testBit_toNat]
  obtain hin | hout := Nat.lt_or_ge pos (c.W * c.S)
  · rw [← bitAt_eq_testBit_phys _ hin, bitAt_dinVec din hin]
  · rw [BitVec.getLsbD_of_ge din pos hout]
    exact Nat.testBit_lt_two_pow ((phys_lt _).trans_le (Nat.pow_le_pow_right Nat.two_pos hout))

/-! ### Completion in a running block -/

/-- R74 (4): a command whose effect is to write a register. -/
theorem exec_write {i : Instr} {b : Block c} {rd : Reg} {v : Vec c} (hf : b.faulted = false)
    (h : effectOf i b = .write rd v) :
    ∃ b', exec i ⟨c, b⟩ = .next ⟨c, b'⟩ ∧ b'.readReg rd = v ∧ b.KeepsOthers b' rd ∧ b.CompletesWith b' 0 := by
  rw [exec_running i hf, h]
  exact ⟨_, rfl, b.readReg_writeReg_self rd v, fun _ hr => b.readReg_writeReg_ne hr v, rfl, rfl, rfl, rfl, rfl, rfl⟩

/-- R92: LDV in a block of more than one word. -/
theorem exec_ldv {b : Block c} (hf : b.faulted = false) (hW : 1 < c.W) (rd : Reg) :
    ∃ b', exec (.ldv rd) ⟨c, b⟩ = .next ⟨c, b'⟩ ∧ b'.readReg rd = dinVec b.din ∧ b.KeepsOthers b' rd ∧
      b.CompletesWith b' 0 :=
  exec_write hf (if_neg (Nat.ne_of_gt hW))

/-- R92: LDV in a block of one word. -/
theorem exec_ldv_one_word {b : Block c} (hf : b.faulted = false) (hW : c.W = 1) (rd : Reg) :
    exec (.ldv rd) ⟨c, b⟩ = .next ⟨c, b.takeFault .illegalCmd⟩ := by
  rw [exec_running _ hf, effectOf, if_pos hW, Effect.apply]

/-- R152: TEST of a position below `N` answers the bit at that position. -/
theorem exec_test_in_range {b : Block c} (hf : b.faulted = false) (rs1 : Reg) {pos : BitVec 16}
    (h : pos.toNat < c.N) :
    exec (.test rs1 pos) ⟨c, b⟩ = .next ⟨c, b.respond (if bitAt (b.readReg rs1) pos.toNat then 1 else 0)⟩ := by
  rw [exec_running _ hf, effectOf, Effect.ifInRange, if_pos h, Effect.apply, testWord_eq]

end Sys2Proof.Machine

section

open Sys2Proof Sys2Proof.Machine

/-- Settles O27: CLR writes the vector of zero words, whose number is 0. -/
theorem clrZeroesTheRegister : Obligations.ClrZeroesTheRegister := by
  intro c b rd hf
  refine ⟨commandWord_rd 0x1 rd, ?_, fun w ⟨hop, h⟩ => decode_of_other_field_ne_zero c (by simp [hop]) h⟩
  obtain ⟨b', hexec, hrd, hothers, hcompletes⟩ := exec_write (i := .clr rd) hf rfl
  refine ⟨b', hexec, fun i => ?_, ?_, hothers, hcompletes⟩
  · simp [hrd]
  · simp [hrd, val]

/-- Settles O28: LDI writes the vector whose last word is `din[S-1:0]`, and the last word has weight 1 in PHYS. -/
theorem ldiLoadsTheLastWord : Obligations.LdiLoadsTheLastWord := by
  intro c b rd hf
  refine ⟨commandWord_rd 0x2 rd, ?_, fun w ⟨hop, h⟩ => decode_of_other_field_ne_zero c (by simp [hop]) h⟩
  obtain ⟨b', hexec, hrd, hothers, hcompletes⟩ := exec_write (i := .ldi rd) hf rfl
  have stored : phys (b'.readReg rd) = b.din.toNat % 2 ^ c.S := by rw [hrd, phys_lastWordVec, toNat_dinLow]
  refine ⟨b', hexec, fun i => ?_, stored, by rw [val, stored], hothers, hcompletes⟩
  simp [hrd, dinLow]

/-- Settles O29: with `W > 1` LDV writes the vector whose bit at each position is that bit of data-in, so PHYS is
data-in; with `W = 1` its own check takes the fault. -/
theorem ldvLoadsEveryWord : Obligations.LdvLoadsEveryWord := by
  intro c b rd hf
  refine ⟨commandWord_rd 0x3 rd, fun hW => ?_, fun hW => ?_, fun w ⟨hop, h⟩ => ?_⟩
  · exact ⟨_, exec_ldv_one_word hf hW rd, b.takeFault_faultEntry .illegalCmd⟩
  · obtain ⟨b', hexec, hrd, hothers, hcompletes⟩ := exec_ldv hf hW rd
    have stored : phys (b'.readReg rd) = b.din.toNat := by rw [hrd, phys_dinVec]
    refine ⟨b', hexec, fun i => ?_, stored, by rw [val, stored], hothers, hcompletes⟩
    simp [hrd, dinWord]
  · by_cases hW : c.W = 1
    · exact decode_ldv_opcode_one_word hW hop
    · exact decode_of_other_field_ne_zero c (by simp [hop]) (by tauto)

/-- Settles O30: TEST reads the bit at `pos` of the vector that LDV wrote, which is bit `pos` of data-in. -/
theorem ldvThenTestReadsDataIn : Obligations.LdvThenTestReadsDataIn := by
  intro c b rd pos hf hW hpos
  obtain ⟨b', hldv, hrd, -, -, hfstat, -⟩ := exec_ldv hf hW rd
  have running : b'.faulted = false := by rwa [Block.faulted, hfstat]
  have htest := exec_test_in_range running rd hpos
  rw [hrd, bitAt_dinVec b.din (stored_of_lt_N hpos)] at htest
  exact ⟨b', _, hldv, htest, rfl, rfl, rfl, rfl, rfl, rfl⟩

end

/-! ## 41_shift.md: SHL -/

/-! ### The word of a command as its operands placed -/

namespace Sys2Proof

open Machine (placed)

theorem commandWord_or (op op' : BitVec 4) (rd rs1 rs2 rd' rs1' rs2' : BitVec 2) (zero zero' : BitVec 6)
    (pos pos' : BitVec 16) :
    commandWord op rd rs1 rs2 zero pos ||| commandWord op' rd' rs1' rs2' zero' pos' =
      commandWord (op ||| op') (rd ||| rd') (rs1 ||| rs1') (rs2 ||| rs2') (zero ||| zero') (pos ||| pos') := by
  have fields : (op ++ rd ++ rs1 ++ rs2 ++ zero ++ pos : BitVec (4 + 2 + 2 + 2 + 6 + 16)) |||
      (op' ++ rd' ++ rs1' ++ rs2' ++ zero' ++ pos') =
      (op ||| op') ++ (rd ||| rd') ++ (rs1 ||| rs1') ++ (rs2 ||| rs2') ++ (zero ||| zero') ++ (pos ||| pos') := by
    simp only [BitVec.or_append]
  exact fields

theorem setWidth_eq_commandWord (pos : BitVec 16) : pos.setWidth 32 = commandWord 0 0 0 0 0 pos :=
  BitVec.setWidth_eq_append (by decide)

/-- R72: a command word is its opcode with the register numbers and `pos` placed in their fields. -/
theorem commandWord_eq_placed (op : BitVec 4) (rd rs1 rs2 : Reg) (pos : BitVec 16) :
    commandWord op (bitsOfReg rd) (bitsOfReg rs1) (bitsOfReg rs2) 0 pos =
      commandWord op 0 0 0 0 0 ||| placed rd 26 ||| placed rs1 24 ||| placed rs2 22 ||| pos.setWidth 32 := by
  have in_rd : ∀ r, placed r 26 = commandWord 0 (bitsOfReg r) 0 0 0 0 := by decide
  have in_rs1 : ∀ r, placed r 24 = commandWord 0 0 (bitsOfReg r) 0 0 0 := by decide
  have in_rs2 : ∀ r, placed r 22 = commandWord 0 0 0 (bitsOfReg r) 0 0 := by decide
  simp [in_rd, in_rs1, in_rs2, setWidth_eq_commandWord, commandWord_or]

/-- R72: the word of SHL. -/
theorem encode_shl (rd rs1 : Reg) (pos : BitVec 16) :
    encode (.shl rd rs1 pos) = 0x40000000#32 ||| placed rd 26 ||| placed rs1 24 ||| pos.setWidth 32 := by
  have opcode : commandWord 0x4 0 0 0 0 0 = 0x40000000#32 := by decide
  have no_rs2 : placed 0 22 = 0#32 := by decide
  have word := commandWord_eq_placed 0x4 rd rs1 0 pos
  rwa [opcode, no_rs2, BitVec.or_zero] at word

/-- R68: SHL has no second source. -/
theorem decode_shl_opcode_of_other_field_ne_zero (c : Config) {w : BitVec 32} (hop : opField w = 0x4)
    (h : rs2Field w ≠ 0 ∨ zeroField w ≠ 0) : ∃ why, decode c w = .illegal why := by
  refine decode_of_not_spellsCommand c fun hw => ?_
  obtain ⟨-, -, hzero, -, -, hrs2, -⟩ := hw
  have no_rs2 : opField w ∉ [0x5#4] := by rw [hop]; decide
  obtain hne | hne := h
  · exact hne (hrs2.resolve_right no_rs2)
  · exact hne hzero

end Sys2Proof

/-! ### The shifted vector as a number -/

namespace Sys2Proof.Machine

variable {c : Config}

/-- R44, R13: the bits of PHYS are the stored bits. -/
theorem testBit_phys (v : Vec c) (pos : Nat) : (phys v).testBit pos = (decide (pos < c.W * c.S) && bitAt v pos) := by
  obtain hin | hout := Nat.lt_or_ge pos (c.W * c.S)
  · rw [bitAt_eq_testBit_phys v hin, decide_eq_true hin, Bool.true_and]
  · rw [decide_eq_false (Nat.not_lt.mpr hout), Bool.false_and]
    exact Nat.testBit_lt_two_pow ((phys_lt v).trans_le (Nat.pow_le_pow_right Nat.two_pos hout))

/-- R108: SHL multiplies the stored number by `2^n`. -/
theorem phys_shiftLeftVec (v : Vec c) (n : Nat) : phys (shiftLeftVec v n) = phys v * 2 ^ n % 2 ^ (c.W * c.S) := by
  refine Nat.eq_of_testBit_eq fun pos => ?_
  rw [testBit_phys, Nat.testBit_mod_two_pow, Nat.testBit_mul_two_pow, testBit_phys]
  obtain hin | hout := Nat.lt_or_ge pos (c.W * c.S)
  · have source_in : pos - n < c.W * c.S := (Nat.sub_le pos n).trans_lt hin
    rw [bitAt_shiftLeftVec v n hin, decide_eq_true source_in, Bool.true_and]
  · simp only [decide_eq_false (Nat.not_lt.mpr hout), Bool.false_and]

/-- R108: SHL multiplies the logical number by `2^n`, whatever the padding. -/
theorem val_shiftLeftVec (v : Vec c) (n : Nat) : val (shiftLeftVec v n) = val v * 2 ^ n % 2 ^ c.N := by
  rw [val, val, phys_shiftLeftVec, Nat.mod_mod_of_dvd _ (Nat.pow_dvd_pow 2 c.N_le_W_mul_S), Nat.mod_mul_mod]

/-- R107: from `N` on nothing of the logical number is left. -/
theorem val_shiftLeftVec_of_N_le (v : Vec c) {n : Nat} (h : c.N ≤ n) : val (shiftLeftVec v n) = 0 := by
  rw [val_shiftLeftVec]
  exact Nat.mod_eq_zero_of_dvd ((Nat.pow_dvd_pow 2 h).mul_left _)

/-- R107 (a): from `W * S` on nothing of the stored number is left. -/
theorem shiftLeftVec_of_stored_le (v : Vec c) {n : Nat} (h : c.W * c.S ≤ n) : shiftLeftVec v n = zeroVec c := by
  rw [← phys_inj, phys_shiftLeftVec, phys_zeroVec]
  exact Nat.mod_eq_zero_of_dvd ((Nat.pow_dvd_pow 2 h).mul_left _)

/-- R107 (b): a shift by `(W - 1) * S + shift` brings the last word, shifted, into word 0. -/
theorem shiftedWord_of_last_word (v : Vec c) {n : Nat} (hge : (c.W - 1) * c.S ≤ n) (hlt : n < c.W * c.S) (i : Nat) :
    shiftedWord v n i =
      if i = 0 then v[c.W - 1]'(Nat.sub_lt c.W_pos Nat.one_pos) <<< (n - (c.W - 1) * c.S) else 0 := by
  have hW := c.W_pos
  have upper : n / c.S = c.W - 1 :=
    Nat.le_antisymm (div_S_le hlt) ((Nat.le_div_iff_mul_le c.S_pos).mpr hge)
  have shift : n % c.S = n - (c.W - 1) * c.S := by rw [← upper, Nat.mod_eq_sub_div_mul]
  rw [shiftedWord_eq v i upper shift]
  obtain rfl | hi := Nat.eq_zero_or_pos i
  · have no_lower : ¬ 0 + (c.W - 1 + 1) < c.W := by omega
    rw [dif_pos (by omega), dif_neg fun h => no_lower h.2, if_pos rfl]
    simp
  · rw [dif_neg (by omega), if_neg (Nat.ne_of_gt hi)]

/-- R111: two shifts are one shift by the sum, on every stored bit. -/
theorem shiftLeftVec_shiftLeftVec (v : Vec c) (p q : Nat) :
    shiftLeftVec (shiftLeftVec v p) q = shiftLeftVec v (p + q) := by
  rw [← phys_inj, phys_shiftLeftVec, phys_shiftLeftVec, phys_shiftLeftVec, Nat.mod_mul_mod, Nat.mul_assoc,
    ← Nat.pow_add]

/-! ### The in-place shift -/

/-- R105: a shifted word is made from words of its own index and above. -/
theorem shiftedWord_congr {u v : Vec c} (pos : Nat) {i : Nat} (h : ∀ j (hj : j < c.W), i ≤ j → u[j] = v[j]) :
    shiftedWord u pos i = shiftedWord v pos i := by
  rw [shiftedWord_eq u i rfl rfl, shiftedWord_eq v i rfl rfl]
  split
  · next hupper =>
    rw [h _ hupper (Nat.le_add_right i _)]
    split
    · next hlower => rw [h _ hlower.2 (Nat.le_add_right i _)]
    · rfl
  · rfl

/-- R105: one turn of the ascending loop. -/
def shiftWordInPlace (pos : Nat) (acc : Vec c) (i : Fin c.W) : Vec c := acc.set i (shiftedWord acc pos i)

theorem shiftLeftAscending_eq_foldl (v : Vec c) (pos : Nat) :
    shiftLeftAscending v pos = (List.finRange c.W).foldl (shiftWordInPlace pos) v := rfl

/-- R105: the words at the indices `is`, taken in ascending order, are overwritten with the shifted words of `v` as long
as no word from the first of them on was overwritten before. -/
theorem foldl_shiftWordInPlace_word (v : Vec c) (pos : Nat) (is : List (Fin c.W)) (ascending : is.Pairwise (· < ·))
    (acc : Vec c) (unread : ∀ i ∈ is, ∀ j : Fin c.W, i ≤ j → acc[j] = v[j]) (k : Fin c.W) :
    (is.foldl (shiftWordInPlace pos) acc)[k] = if k ∈ is then shiftedWord v pos k else acc[k] := by
  induction is generalizing acc with
  | nil => simp
  | cons i is ih =>
    obtain ⟨below, ascending⟩ := List.pairwise_cons.mp ascending
    have written : shiftedWord acc pos i = shiftedWord v pos i :=
      shiftedWord_congr pos fun j hj hij => unread i List.mem_cons_self ⟨j, hj⟩ hij
    have kept (j : Fin c.W) (h : i ≠ j) : (shiftWordInPlace pos acc i)[j] = acc[j] :=
      Vector.getElem_set_ne i.isLt j.isLt (Fin.val_ne_of_ne h)
    rw [List.foldl_cons, ih ascending _ fun i' hi' j hj => ?_]
    · by_cases hk : k ∈ is
      · simp [hk]
      · by_cases hki : i = k
        · subst hki
          simp [hk, shiftWordInPlace, written]
        · simp [hk, Ne.symm hki, kept k hki]
    · rw [kept j ((below i' hi').trans_le hj).ne]
      exact unread i' (List.mem_cons_of_mem i hi') j hj

/-- R105: every word after the loop from index 0 upward. -/
theorem shiftLeftAscending_word (v : Vec c) (pos : Nat) (k : Fin c.W) :
    (shiftLeftAscending v pos)[k] = shiftedWord v pos k := by
  rw [shiftLeftAscending_eq_foldl, foldl_shiftWordInPlace_word v pos _ (List.pairwise_lt_finRange c.W) v
    (fun _ _ _ _ => rfl) k, if_pos (List.mem_finRange k)]

/-! ### SHL in a running block -/

/-- R100: every `pos` is legal, and SHL writes the shifted source. -/
theorem exec_shl {b : Block c} (hf : b.faulted = false) (rd rs1 : Reg) (pos : BitVec 16) :
    ∃ b', exec (.shl rd rs1 pos) ⟨c, b⟩ = .next ⟨c, b'⟩ ∧
      b'.readReg rd = shiftLeftVec (b.readReg rs1) pos.toNat ∧ b.KeepsOthers b' rd ∧ b.CompletesWith b' 0 :=
  exec_write hf rfl

end Sys2Proof.Machine

section

open Sys2Proof Sys2Proof.Machine

/-- Settles O31: SHL writes the vector of the words of R100; an absent lower contribution is an OR with 0. -/
theorem shlFunnelsEveryWord : Obligations.ShlFunnelsEveryWord := by
  intro c b rd rs1 pos hf
  obtain ⟨b', hexec, hrd, hothers, hcompletes⟩ := exec_shl hf rd rs1 pos
  refine ⟨encode_shl rd rs1 pos, ⟨b', hexec, fun i => ?_, hothers, hcompletes⟩,
    fun w ⟨hop, h⟩ => decode_shl_opcode_of_other_field_ne_zero c hop h⟩
  rw [hrd, Fin.getElem_fin, shiftLeftVec_word, shiftedWord_eq _ _ rfl rfl]
  split
  · split
    · rfl
    · exact BitVec.or_zero.symm
  · rfl

/-- Settles O32: bit `p` of the result is bit `p - pos` of the source, and `2^N` divides `2^(W*S)`. -/
theorem shlMultipliesByPowerOfTwo : Obligations.ShlMultipliesByPowerOfTwo := by
  intro c b rd rs1 pos hf
  obtain ⟨b', hexec, hrd, -⟩ := exec_shl hf rd rs1 pos
  exact ⟨b', hexec, by rw [hrd, phys_shiftLeftVec], by rw [hrd, val_shiftLeftVec]⟩

/-- Settles O33: the vector shifted by 0 is the vector. -/
theorem shlByZeroCopies : Obligations.ShlByZeroCopies := by
  intro c b rd rs1 hf
  obtain ⟨b', hexec, hrd, hothers, -⟩ := exec_shl hf rd rs1 0
  exact ⟨b', hexec, hrd.trans (shiftLeftVec_zero _), hothers⟩

/-- Settles O34: a multiple of `2^N` is 0 in VAL and a multiple of `2^(W*S)` is 0 in PHYS; between the two the shift
crosses exactly `W - 1` words, since `(W - 1) * S < N`. -/
theorem shlByWidthOrMoreIsLogicallyZero : Obligations.ShlByWidthOrMoreIsLogicallyZero := by
  intro c b rd rs1 pos hf hN
  obtain ⟨b', hexec, hrd, -⟩ := exec_shl hf rd rs1 pos
  refine ⟨b', hexec, by rw [hrd, val_shiftLeftVec_of_N_le _ hN], fun hall i => ?_, fun hlt i => ?_⟩
  · rw [hrd, shiftLeftVec_of_stored_le _ hall, Fin.getElem_fin, zeroVec_word]
  · have hge : (c.W - 1) * c.S ≤ pos.toNat := by
      have := c.N_eq
      omega
    rw [hrd, Fin.getElem_fin, shiftLeftVec_word, shiftedWord_of_last_word _ hge hlt]

/-- Settles O35: each turn of the loop reads only words that no earlier turn wrote. -/
theorem ascendingShiftInPlaceAgrees : Obligations.AscendingShiftInPlaceAgrees := by
  intro c v pos
  refine Vector.ext fun k hk => ?_
  rw [shiftLeftVec_word]
  exact shiftLeftAscending_word v pos ⟨k, hk⟩

/-- Settles O36: both forms write the shifted `vs`, and the pure form writes no other register than `vd`. -/
theorem pureAndMutatingShiftsAgree : Obligations.PureAndMutatingShiftsAgree := by
  intro c b vd vs pos hf hne
  obtain ⟨p, hpure, hvd, hothers, -⟩ := exec_shl hf vd vs pos
  obtain ⟨m, hmutating, hvs, -⟩ := exec_shl hf vs vs pos
  exact ⟨p, m, hpure, hmutating, hvd.trans hvs.symm, hothers vs hne.symm⟩

/-- Settles O37: the two shifts and the one write the same vector. -/
theorem shiftsCompose : Obligations.ShiftsCompose := by
  intro c b a p q pq hf hpq
  obtain ⟨b₁, hfirst, ha₁, -, -, hfstat, -⟩ := exec_shl hf a a p
  have running : b₁.faulted = false := by rwa [Block.faulted, hfstat]
  obtain ⟨b₂, hsecond, ha₂, -⟩ := exec_shl running a a q
  obtain ⟨b₃, hsum, ha₃, -⟩ := exec_shl hf a a pq
  have same : b₂.readReg a = b₃.readReg a := by rw [ha₂, ha₁, ha₃, shiftLeftVec_shiftLeftVec, hpq]
  exact ⟨b₁, b₂, b₃, hfirst, hsecond, hsum, congrArg phys same, congrArg val same⟩

end

/-! ## 42_and.md: AND -/

/-! ### The word of AND -/

namespace Sys2Proof

open Machine (placed)

/-- R72: the word of AND, which has no `pos`. -/
theorem encode_and (rd rs1 rs2 : Reg) :
    encode (.and rd rs1 rs2) = 0x50000000#32 ||| placed rd 26 ||| placed rs1 24 ||| placed rs2 22 := by
  have opcode : commandWord 0x5 0 0 0 0 0 = 0x50000000#32 := by decide
  have no_pos : (0#16).setWidth 32 = 0#32 := rfl
  have word := commandWord_eq_placed 0x5 rd rs1 rs2 0#16
  rwa [opcode, no_pos, BitVec.or_zero] at word

/-- R68: AND uses every register field, so only `zero` and `pos` must be zero. -/
theorem decode_and_opcode_of_other_field_ne_zero (c : Config) {w : BitVec 32} (hop : opField w = 0x5)
    (h : zeroField w ≠ 0 ∨ posField w ≠ 0) : ∃ why, decode c w = .illegal why := by
  refine decode_of_not_spellsCommand c fun hw => ?_
  obtain ⟨-, -, hzero, -, -, -, hpos⟩ := hw
  have no_pos : opField w ∉ [0x4#4, 0x8#4, 0x9#4, 0xA#4] := by rw [hop]; decide
  obtain hne | hne := h
  · exact hne hzero
  · exact hne (hpos.resolve_right no_pos)

end Sys2Proof

/-! ### The word-wise AND as a number, and its algebra -/

namespace Sys2Proof.Machine

variable {c : Config}

/-- R122: the stored number, bit by bit. -/
theorem phys_andVec (u v : Vec c) : phys (andVec u v) = phys u &&& phys v := by
  refine Nat.eq_of_testBit_eq fun pos => ?_
  rw [Nat.testBit_and, testBit_phys, testBit_phys, testBit_phys, bitAt_andVec]
  cases decide (pos < c.W * c.S) <;> rfl

/-- R122: the logical number, whatever the padding. -/
theorem val_andVec (u v : Vec c) : val (andVec u v) = val u &&& val v := by
  rw [val, val, val, phys_andVec, Nat.and_mod_two_pow]

theorem andVec_comm (u v : Vec c) : andVec u v = andVec v u := by
  refine Vector.ext fun i hi => ?_
  rw [andVec_word, andVec_word, BitVec.and_comm]

@[simp] theorem andVec_self (v : Vec c) : andVec v v = v := by
  refine Vector.ext fun i hi => ?_
  rw [andVec_word, BitVec.and_self]

theorem andVec_assoc (u v w : Vec c) : andVec (andVec u v) w = andVec u (andVec v w) := by
  refine Vector.ext fun i hi => ?_
  rw [andVec_word, andVec_word, andVec_word, andVec_word, BitVec.and_assoc]

/-! ### AND in a running block, and in any block with its sources exchanged -/

/-- R120: AND is total, and writes the word-wise AND of its sources. -/
theorem exec_and {b : Block c} (hf : b.faulted = false) (rd rs1 rs2 : Reg) :
    ∃ b', exec (.and rd rs1 rs2) ⟨c, b⟩ = .next ⟨c, b'⟩ ∧
      b'.readReg rd = andVec (b.readReg rs1) (b.readReg rs2) ∧ b.KeepsOthers b' rd ∧ b.CompletesWith b' 0 :=
  exec_write hf rfl

/-- R123: the order of the sources is of no account, in the faulted state either. -/
theorem exec_and_comm (rd rs1 rs2 : Reg) (s : State) : exec (.and rd rs1 rs2) s = exec (.and rd rs2 rs1) s := by
  have same_rule : (ruleOf (.and rd rs1 rs2) : Block s.cfg → Block s.cfg) = ruleOf (.and rd rs2 rs1) := by
    funext b
    rw [ruleOf_eq_apply, ruleOf_eq_apply, effectOf, effectOf, andVec_comm]
  rw [exec_eq_perform, exec_eq_perform, same_rule]

end Sys2Proof.Machine

section

open Sys2Proof Sys2Proof.Machine

/-- Settles O38: AND writes the vector whose words are the ANDs of the sources' words. -/
theorem andIsWordwise : Obligations.AndIsWordwise := by
  intro c b rd rs1 rs2 hf
  obtain ⟨b', hexec, hrd, hothers, hcompletes⟩ := exec_and hf rd rs1 rs2
  refine ⟨encode_and rd rs1 rs2, ⟨b', hexec, fun i => ?_, hothers, hcompletes⟩,
    fun w ⟨hop, h⟩ => decode_and_opcode_of_other_field_ne_zero c hop h⟩
  rw [hrd]
  exact andVec_word _ _ i i.isLt

/-- Settles O39: every stored bit of the result is the AND of the sources' bits at its position, so PHYS is the AND of
their PHYS, and the remainder modulo `2^N` keeps the AND. -/
theorem andOfStoredAndLogicalValues : Obligations.AndOfStoredAndLogicalValues := by
  intro c b rd rs1 rs2 hf
  obtain ⟨b', hexec, hrd, -⟩ := exec_and hf rd rs1 rs2
  exact ⟨b', hexec, by rw [hrd, phys_andVec], by rw [hrd, val_andVec], fun pos _ => by rw [hrd, bitAt_andVec]⟩

/-- Settles O40: the three laws hold of the AND of two words. -/
theorem andIsCommutativeAndIdempotent : Obligations.AndIsCommutativeAndIdempotent := by
  refine fun c b vd vs vt => ⟨exec_and_comm vd vs vt ⟨c, b⟩, fun hf => ?_, andVec_assoc⟩
  obtain ⟨b', hexec, hvd, -⟩ := exec_and hf vd vs vs
  exact ⟨b', hexec, hvd.trans (andVec_self _)⟩

end

/-! ## 43_decrement.md: DEC -/

/-! ### The words that the borrow reaches -/

namespace Sys2Proof.Machine

variable {c : Config}

/-- The words of index from `m` to `k - 1` at their maximum, every other as in `v`. -/
def wrapWords (v : Vec c) (m k : Nat) : Vec c :=
  Vector.ofFn fun i : Fin c.W => if m ≤ i.val ∧ i.val < k then BitVec.allOnes c.S else v[i]

@[simp] theorem wrapWords_word (v : Vec c) (m k i : Nat) (h : i < c.W) :
    (wrapWords v m k)[i] = if m ≤ i ∧ i < k then BitVec.allOnes c.S else v[i] := by
  simp [wrapWords]

theorem wrapWords_of_le (v : Vec c) {m k : Nat} (h : k ≤ m) : wrapWords v m k = v := by
  refine Vector.ext fun i hi => ?_
  rw [wrapWords_word, if_neg (by omega)]

theorem wrapWords_set_allOnes (v : Vec c) {m k : Nat} (hk : k < c.W) (hm : m ≤ k) :
    wrapWords (v.set k (BitVec.allOnes c.S)) m k = wrapWords v m (k + 1) := by
  refine Vector.ext fun i hi => ?_
  rw [wrapWords_word, wrapWords_word, Vector.getElem_set]
  obtain hlt | rfl | hgt := Nat.lt_trichotomy i k
  · simp [hlt, hlt.ne', Nat.lt_succ_of_lt hlt]
  · simp [hm]
  · simp [hgt.ne, Nat.not_lt.mpr hgt.le, Nat.not_lt.mpr (Nat.succ_le_of_lt hgt)]

/-- R125: the borrow runs through zero words, wrapping each. -/
theorem borrowFrom_of_zero_words (v : Vec c) {m k : Nat} (hk : k ≤ c.W) (hm : m ≤ k)
    (hzero : ∀ i (_ : i < c.W), m ≤ i → i < k → v[i] = 0) :
    borrowFrom v k hk = borrowFrom (wrapWords v m k) m (hm.trans hk) := by
  induction k generalizing v with
  | zero =>
    obtain rfl := Nat.le_zero.mp hm
    rw [wrapWords_of_le v le_rfl]
  | succ k ih =>
    obtain rfl | hlt := hm.eq_or_lt
    · rw [wrapWords_of_le v le_rfl]
    · have hmk : m ≤ k := Nat.le_of_lt_succ hlt
      rw [borrowFrom_goes_on v k hk (hzero k hk hmk k.lt_succ_self), ih _ _ hmk fun i hi hmi hik => ?_,
        wrapWords_set_allOnes v hk hmk]
      rw [Vector.getElem_set_ne hk hi hik.ne']
      exact hzero i hi hmi (Nat.lt_succ_of_lt hik)

/-- R126: the borrow ends at the last non-zero word. -/
theorem decrementVec_of_last_nonzero (v : Vec c) (j : Fin c.W) (hne : v[j] ≠ 0)
    (hzero : ∀ i : Fin c.W, j < i → v[i] = 0) :
    decrementVec v = (wrapWords v (j + 1) c.W).set j (v[j] - 1) := by
  have kept : (wrapWords v (j + 1) c.W)[j.val] = v[j] := by simp
  rw [decrementVec, borrowFrom_of_zero_words v le_rfl j.isLt fun i hi hji _ => hzero ⟨i, hi⟩ hji,
    borrowFrom_stops _ _ j.isLt (kept ▸ hne), kept]

/-- R127: with no word to end it the borrow wraps every word. -/
theorem decrementVec_zeroVec (c : Config) : decrementVec (zeroVec c) = Vector.replicate c.W (BitVec.allOnes c.S) := by
  rw [decrementVec, borrowFrom_of_zero_words _ le_rfl (Nat.zero_le _) fun i hi _ _ => zeroVec_word i hi, borrowFrom]
  refine Vector.ext fun i hi => ?_
  simp [hi]

theorem eq_zeroVec_of_words {v : Vec c} (h : ∀ i : Fin c.W, v[i] = 0) : v = zeroVec c :=
  Vector.ext fun i hi => (h ⟨i, hi⟩).trans (zeroVec_word i hi).symm

/-! ### DEC in closed form -/

/-- Taking 1 modulo `m` is adding `m - 1`. -/
theorem eq_add_pred_mod_of_succ_modEq {x y m : Nat} (h : x + 1 ≡ y [MOD m]) (hx : x < m) : x = (y + (m - 1)) % m := by
  have sum : x + 1 + (m - 1) = x + m := by omega
  calc x = (x + m) % m := by rw [Nat.add_mod_right, Nat.mod_eq_of_lt hx]
    _ = (y + (m - 1)) % m := sum ▸ h.add_right (m - 1)

/-- R128: PHYS after DEC. -/
theorem phys_decrementVec_eq (v : Vec c) :
    phys (decrementVec v) = (phys v + (2 ^ (c.W * c.S) - 1)) % 2 ^ (c.W * c.S) :=
  eq_add_pred_mod_of_succ_modEq (phys_decrementVec v) (phys_lt _)

/-- R129: DEC takes 1 from VAL, whatever the padding. -/
theorem val_decrementVec (v : Vec c) : val (decrementVec v) + 1 ≡ val v [MOD 2 ^ c.N] :=
  ((Nat.mod_modEq _ _).add_right 1).trans ((phys_decrementVec_mod v).trans (Nat.mod_modEq _ _).symm)

/-- R129: VAL after DEC. -/
theorem val_decrementVec_eq (v : Vec c) : val (decrementVec v) = (val v + (2 ^ c.N - 1)) % 2 ^ c.N :=
  eq_add_pred_mod_of_succ_modEq (val_decrementVec v) (val_lt _)

/-- R132: `k` decrements take `k` from VAL. -/
theorem val_iterate_decrementVec (v : Vec c) (k : Nat) : val (decrementVec^[k] v) + k ≡ val v [MOD 2 ^ c.N] := by
  induction k generalizing v with
  | zero => rfl
  | succ k ih =>
    rw [Function.iterate_succ_apply, ← Nat.add_assoc]
    exact ((ih (decrementVec v)).add_right 1).trans (val_decrementVec v)

/-- R132: `k` decrements restore VAL exactly when `2^N` divides `k`. -/
theorem val_iterate_decrementVec_eq_iff (v : Vec c) (k : Nat) : val (decrementVec^[k] v) = val v ↔ 2 ^ c.N ∣ k := by
  have taken := val_iterate_decrementVec v k
  rw [← Nat.modEq_zero_iff_dvd]
  refine ⟨fun h => ?_, fun h => ?_⟩
  · rw [h] at taken
    exact Nat.ModEq.add_left_cancel' (val v) taken
  · exact ((h.symm.add_left _).trans taken).eq_of_lt_of_lt (val_lt _) (val_lt _)

/-! ### DEC in a running block, once and repeated -/

/-- R125: DEC writes the decremented vector. -/
theorem exec_dec {b : Block c} (hf : b.faulted = false) (rd : Reg) :
    ∃ b', exec (.dec rd) ⟨c, b⟩ = .next ⟨c, b'⟩ ∧
      b'.readReg rd = decrementVec (b.readReg rd) ∧ b.KeepsOthers b' rd ∧ b.CompletesWith b' 0 :=
  exec_write hf rfl

/-- A step of a running block that takes DEC. -/
theorem step_dec {b : Block c} (hf : b.faulted = false) {rd : Reg} {d : BitVec (c.W * c.S)} {q : List (HostInput c)}
    (h : b.queue = .command (encode (.dec rd)) d :: q) :
    ∃ b', step ⟨c, b⟩ = .next ⟨c, b'⟩ ∧ b'.readReg rd = decrementVec (b.readReg rd) ∧ b'.faulted = false ∧
      b'.queue = q := by
  have decoded : decode c (encode (.dec rd)) = .instr (.dec rd) := decode_encode_of_wellFormed rfl
  obtain ⟨b', hexec, hrd, -, -, hfstat, -, -, -, hqueue⟩ := exec_dec (b := b.accept (encode (.dec rd)) d q) hf rd
  exact ⟨b', (step_command h decoded).trans hexec, hrd, by rwa [Block.faulted, hfstat], hqueue⟩

/-- `k` steps of a running block that take `k` DEC commands. -/
theorem runSteps_dec {b : Block c} (hf : b.faulted = false) {rd : Reg} {k : Nat} {d : BitVec (c.W * c.S)}
    {later : List (HostInput c)} (h : b.queue = List.replicate k (.command (encode (.dec rd)) d) ++ later) :
    ∃ b', runSteps k ⟨c, b⟩ = .next ⟨c, b'⟩ ∧ b'.readReg rd = decrementVec^[k] (b.readReg rd) := by
  induction k generalizing b with
  | zero => exact ⟨b, rfl, rfl⟩
  | succ k ih =>
    obtain ⟨b₁, hstep, hrd₁, hf₁, hqueue₁⟩ := step_dec hf h
    obtain ⟨b', hrun, hrd⟩ := ih hf₁ hqueue₁
    exact ⟨b', (runSteps_succ k hstep).trans hrun, by rw [hrd, hrd₁, Function.iterate_succ_apply]⟩

end Sys2Proof.Machine

section

open Sys2Proof Sys2Proof.Machine

/-- Settles O41: the borrow runs through the zero words above index `j`, wrapping each, and ends at word `j`; from the
zero vector it runs through every word. -/
theorem decRipplesTheBorrow : Obligations.DecRipplesTheBorrow := by
  intro c b rd hf
  obtain ⟨b', hexec, hrd, hothers, hcompletes⟩ := exec_dec hf rd
  refine ⟨commandWord_rd 0x6 rd, ⟨b', hexec, fun j hne hzero => ?_, fun hzero i => ?_, hothers, hcompletes⟩,
    fun w ⟨hop, h⟩ => decode_of_other_field_ne_zero c (by simp [hop]) h⟩
  · rw [hrd, decrementVec_of_last_nonzero _ j hne hzero]
    refine ⟨fun i hji => ?_, Vector.getElem_set_self j.isLt, fun i hij => ?_⟩
    · have wrapped : j.val + 1 ≤ i.val ∧ i.val < c.W := ⟨hji, i.isLt⟩
      rw [Fin.getElem_fin, Vector.getElem_set_ne _ _ (Fin.val_ne_of_ne hji.ne), wrapWords_word, if_pos wrapped]
    · have below : ¬ (j.val + 1 ≤ i.val ∧ i.val < c.W) := fun ⟨hji, _⟩ => (Nat.lt_of_succ_le hji).asymm hij
      rw [Fin.getElem_fin, Vector.getElem_set_ne _ _ (Fin.val_ne_of_ne hij.ne'), wrapWords_word, if_neg below,
        Fin.getElem_fin]
  · rw [hrd, eq_zeroVec_of_words hzero, decrementVec_zeroVec]
    exact Vector.getElem_replicate _

/-- Settles O42: DEC of the zero vector makes every word all ones, and in closed form 0 less 1 is the modulus less 1. -/
theorem decOfZeroWrapsEveryWord : Obligations.DecOfZeroWrapsEveryWord := by
  intro c b rd hf hzero
  obtain ⟨b', hexec, hrd, -⟩ := exec_dec hf rd
  rw [eq_zeroVec_of_words hzero] at hrd
  have pred_mod (n : Nat) : (0 + (2 ^ n - 1)) % 2 ^ n = 2 ^ n - 1 := by
    rw [Nat.zero_add, Nat.mod_eq_of_lt (Nat.sub_one_lt (Nat.two_pow_pos n).ne')]
  have logical_zero : val (zeroVec c) = 0 := by simp [val]
  refine ⟨b', hexec, fun i => ?_, ?_, ?_⟩
  · rw [hrd, decrementVec_zeroVec, Fin.getElem_fin, Vector.getElem_replicate, BitVec.toNat_allOnes]
  · rw [hrd, phys_decrementVec_eq, phys_zeroVec, pred_mod]
  · rw [hrd, val_decrementVec_eq, logical_zero, pred_mod]

/-- Settles O43: the borrow chain takes 1 from PHYS modulo `2^(W*S)`, and `2^N` divides `2^(W*S)`. -/
theorem decSubtractsOne : Obligations.DecSubtractsOne := by
  intro c b rd hf
  obtain ⟨b', hexec, hrd, -⟩ := exec_dec hf rd
  exact ⟨b', hexec, by rw [hrd, phys_decrementVec_eq], by rw [hrd, val_decrementVec_eq]⟩

/-- Settles O44: the `k` steps leave the vector decremented `k` times, whose VAL is `k` less modulo `2^N`. -/
theorem repeatedDecCountsDown : Obligations.RepeatedDecCountsDown := by
  intro c b rd k d later hf
  obtain ⟨b', hrun, (hrd : b'.readReg rd = decrementVec^[k] (b.readReg rd))⟩ :=
    runSteps_dec (b := { b with queue := List.replicate k (.command (encode (.dec rd)) d) ++ later }) hf rfl
  refine ⟨b', hrun, ?_, ?_⟩
  · rw [hrd, val_iterate_decrementVec, Nat.mod_eq_of_lt (val_lt _)]
  · rw [hrd, val_iterate_decrementVec_eq_iff]

end

/-! ## 44_popcount.md: POPC -/

/-! ### The word of POPC -/

namespace Sys2Proof

open Machine (placed)

/-- R72: the word of POPC, whose one operand is its source. -/
theorem encode_popc (rs1 : Reg) : encode (.popc rs1) = 0x70000000#32 ||| placed rs1 24 := by
  revert rs1
  decide

/-- R68: POPC uses no field but `rs1`, so every other must be zero. -/
theorem decode_popc_opcode_of_other_field_ne_zero (c : Config) {w : BitVec 32} (hop : opField w = 0x7)
    (h : rdField w ≠ 0 ∨ rs2Field w ≠ 0 ∨ zeroField w ≠ 0 ∨ posField w ≠ 0) : ∃ why, decode c w = .illegal why := by
  refine decode_of_not_spellsCommand c fun hw => ?_
  obtain ⟨-, -, hzero, hrd, -, hrs2, hpos⟩ := hw
  have no_rd : opField w ∉ [0x1#4, 0x2#4, 0x3#4, 0x4#4, 0x5#4, 0x6#4, 0x9#4, 0xA#4] := by rw [hop]; decide
  have no_rs2 : opField w ∉ [0x5#4] := by rw [hop]; decide
  have no_pos : opField w ∉ [0x4#4, 0x8#4, 0x9#4, 0xA#4] := by rw [hop]; decide
  obtain hne | hne | hne | hne := h
  · exact hne (hrd.resolve_right no_rd)
  · exact hne (hrs2.resolve_right no_rs2)
  · exact hne hzero
  · exact hne (hpos.resolve_right no_pos)

end Sys2Proof

/-! ### The count by words and by positions -/

namespace Sys2Proof.Machine

variable {c : Config}

/-- R140: the count as one sum over the words, word 0 masked. -/
theorem logicalCount_eq_sum (v : Vec c) :
    logicalCount v = ∑ i : Fin c.W, if i.val = 0 then popcnt (v[i] &&& topMask c) else popcnt v[i] := by
  rw [logicalCount, ← List.sum_cons, ← List.sum_ofFn]
  congr 1
  have hW := c.W_pos
  refine List.ext_getElem (by simp; omega) fun i _ _ => ?_
  cases i <;> simp

/-- R44: the positions of word `i`, counted from its lowest, count its bits. -/
theorem countP_bitAt_word (v : Vec c) {i : Nat} (hi : i < c.W) {n : Nat} (hn : n ≤ c.S) :
    ((List.range n).map ((c.W - 1 - i) * c.S + ·)).countP (bitAt v) = (List.range n).countP fun j => v[i].getLsbD j := by
  rw [List.countP_map]
  refine List.countP_congr fun j hj => ?_
  rw [Function.comp_apply, bitAt_position v hi ((List.mem_range.mp hj).trans_le hn)]

/-- The positions below `k * S` are those of the last `k` words. -/
theorem countP_bitAt_last_words (v : Vec c) {k : Nat} (hk : k ≤ c.W) :
    (List.range (k * c.S)).countP (bitAt v) = ((v.toList.drop (c.W - k)).map popcnt).sum := by
  induction k with
  | zero =>
    rw [Nat.sub_zero, List.drop_of_length_le (by simp)]
    simp
  | succ k ih =>
    have hi : c.W - (k + 1) < c.W := by omega
    have weight : c.W - 1 - (c.W - (k + 1)) = k := by omega
    have words : v.toList.drop (c.W - (k + 1)) = v[c.W - (k + 1)] :: v.toList.drop (c.W - k) := by
      rw [List.drop_eq_getElem_cons (by rwa [Vector.length_toList]), Vector.getElem_toList,
        show c.W - (k + 1) + 1 = c.W - k by omega]
    have word := countP_bitAt_word v hi le_rfl
    rw [weight] at word
    rw [Nat.succ_mul, List.range_add, List.countP_append, ih (Nat.le_of_succ_le hk), word,
      words, List.map_cons, List.sum_cons, Nat.add_comm, popcnt]

/-- R141: masking word 0 leaves its low `first` bits to count. -/
theorem popcnt_and_topMask (a : Word c) :
    popcnt (a &&& topMask c) = (List.range c.first).countP fun j => a.getLsbD j := by
  obtain ⟨padding, hpadding⟩ := Nat.exists_eq_add_of_le c.first_le_S
  have masked (j : Nat) (hj : j < c.S) : (a &&& topMask c).getLsbD j = (a.getLsbD j && decide (j < c.first)) := by
    rw [BitVec.getLsbD_and, topMask_getLsbD c hj]
  have kept : (List.range c.first).countP (fun j => (a &&& topMask c).getLsbD j) =
      (List.range c.first).countP fun j => a.getLsbD j := by
    refine List.countP_congr fun j hj => ?_
    have hj := List.mem_range.mp hj
    rw [masked j (hj.trans_le c.first_le_S), decide_eq_true hj, Bool.and_true]
  have cleared : ((List.range padding).map (c.first + ·)).countP (fun j => (a &&& topMask c).getLsbD j) = 0 := by
    refine List.countP_eq_zero.mpr fun p hp => ?_
    obtain ⟨j, hj, rfl⟩ := List.mem_map.mp hp
    have hj := List.mem_range.mp hj
    simp [masked (c.first + j) (by omega)]
  calc popcnt (a &&& topMask c)
      = (List.range (c.first + padding)).countP (fun j => (a &&& topMask c).getLsbD j) := by rw [← hpadding, popcnt]
    _ = (List.range c.first).countP fun j => a.getLsbD j := by
      rw [List.range_add, List.countP_append, kept, cleared, Nat.add_zero]

/-- R143: the count is that of the positions below `N` whose bit is 1. -/
theorem logicalCount_eq_countP_bitAt (v : Vec c) : logicalCount v = (List.range c.N).countP (bitAt v) := by
  have top := countP_bitAt_word v c.W_pos c.first_le_S
  have lower := countP_bitAt_last_words v (Nat.sub_le c.W 1)
  rw [Nat.sub_zero] at top
  rw [Nat.sub_sub_self c.W_pos, List.drop_one] at lower
  rw [c.N_eq, List.range_add, List.countP_append, lower, top, logicalCount, popcnt_and_topMask, Nat.add_comm]

/-- R143: it is the number of 1 bits of VAL. -/
theorem logicalCount_eq_countP_testBit_val (v : Vec c) :
    logicalCount v = (List.range c.N).countP fun pos => (val v).testBit pos := by
  rw [logicalCount_eq_countP_bitAt]
  refine List.countP_congr fun pos hpos => ?_
  rw [bitAt_eq_testBit_val v (List.mem_range.mp hpos)]

/-- R142: the count is at most `N`. -/
theorem logicalCount_le_N (v : Vec c) : logicalCount v ≤ c.N := by
  rw [logicalCount_eq_countP_bitAt]
  exact List.countP_le_length.trans_eq List.length_range

/-- R142: the 16-bit answer loses nothing of the count. -/
theorem toNat_ofNat_logicalCount (v : Vec c) : (BitVec.ofNat 16 (logicalCount v)).toNat = logicalCount v := by
  have := logicalCount_le_N v
  have := c.N_le
  rw [BitVec.toNat_ofNat, Nat.mod_eq_of_lt (by omega)]

/-- R145: with every stored bit 1, the padding bits too, the count is `N`. -/
theorem logicalCount_replicate_allOnes (c : Config) :
    logicalCount (Vector.replicate c.W (BitVec.allOnes c.S)) = c.N := by
  have ones (pos : Nat) : bitAt (Vector.replicate c.W (BitVec.allOnes c.S)) pos = true := by
    simp [bitAt, selectWord, bitOffsetFor_lt]
  rw [logicalCount_eq_countP_bitAt, List.countP_eq_length.mpr fun pos _ => ones pos, List.length_range]

/-! ### POPC in a running block, and DEC after CLR -/

/-- R140: POPC answers the count and writes no register. -/
theorem exec_popc {b : Block c} (hf : b.faulted = false) (rs1 : Reg) :
    ∃ b', exec (.popc rs1) ⟨c, b⟩ = .next ⟨c, b'⟩ ∧ b'.regs = b.regs ∧
      b.CompletesWith b' (BitVec.ofNat 16 (logicalCount (b.readReg rs1))) :=
  ⟨_, exec_running _ hf, rfl, rfl, rfl, rfl, rfl, rfl, rfl⟩

/-- R127: DEC of a cleared register makes every stored bit 1. -/
theorem exec_clr_dec {b : Block c} (hf : b.faulted = false) (r : Reg) :
    ∃ b₁ b₂, exec (.clr r) ⟨c, b⟩ = .next ⟨c, b₁⟩ ∧ exec (.dec r) ⟨c, b₁⟩ = .next ⟨c, b₂⟩ ∧
      b₂.readReg r = Vector.replicate c.W (BitVec.allOnes c.S) ∧ b₂.faulted = false := by
  obtain ⟨b₁, hclr, hr₁, -, -, hfstat₁, -⟩ := exec_write (i := .clr r) hf rfl
  have running₁ : b₁.faulted = false := by rwa [Block.faulted, hfstat₁]
  obtain ⟨b₂, hdec, hr₂, -, -, hfstat₂, -⟩ := exec_dec running₁ r
  exact ⟨b₁, b₂, hclr, hdec, by rw [hr₂, hr₁, decrementVec_zeroVec], by rwa [Block.faulted, hfstat₂]⟩

end Sys2Proof.Machine

section

open Sys2Proof Sys2Proof.Machine

/-- Settles O45: the answer is the sum over the words, and it counts positions below `N`. -/
theorem popcCountsMaskedWords : Obligations.PopcCountsMaskedWords := by
  intro c b rs1 hf
  obtain ⟨b', hexec, hregs, hcompletes⟩ := exec_popc hf rs1
  refine ⟨encode_popc rs1, ⟨b', _, hexec, ?_, ?_, hregs, hcompletes⟩,
    fun w ⟨hop, h⟩ => decode_popc_opcode_of_other_field_ne_zero c hop h⟩
  · rw [toNat_ofNat_logicalCount, logicalCount_eq_sum, topMask]
  · rw [toNat_ofNat_logicalCount]
    exact logicalCount_le_N _

/-- Settles O46: word 0 holds the top `first` positions below `N`, and the other words hold the `(W - 1) * S` below. -/
theorem popcCountsLogicalBits : Obligations.PopcCountsLogicalBits := by
  intro c b rs1 hf
  obtain ⟨b', hexec, -, hcompletes⟩ := exec_popc hf rs1
  refine ⟨b', _, hexec, hcompletes, ?_, ?_⟩
  · rw [toNat_ofNat_logicalCount, logicalCount_eq_countP_bitAt]
  · rw [toNat_ofNat_logicalCount, logicalCount_eq_countP_testBit_val]

/-- Settles O47: CLR and DEC make every stored bit 1, `N` of them at positions below `N`, and POPC writes no register. -/
theorem popcMasksOnReadOnly : Obligations.PopcMasksOnReadOnly := by
  intro c b r hf _
  obtain ⟨b₁, b₂, hclr, hdec, hr, running⟩ := exec_clr_dec hf r
  obtain ⟨b₃, hpopc, hregs, hcompletes⟩ := exec_popc running r
  rw [hr, logicalCount_replicate_allOnes] at hcompletes
  have full : (b₂.readReg r)[0]'c.W_pos = BitVec.allOnes c.S := by simp [hr]
  refine ⟨b₁, b₂, b₃, hclr, hdec, hpopc, full, hcompletes, ?_⟩
  rw [Block.readReg_of_regs_eq hregs, full]

end

/-! ## 45_bitops.md: TEST, SET and UNSET -/

/-! ### The words of TEST, SET and UNSET -/

namespace Sys2Proof

open Machine (placed)

/-- R72: a word that takes `rd` and `pos` alone. -/
theorem commandWord_rd_pos (op : BitVec 4) (rd : Reg) (pos : BitVec 16) :
    commandWord op (bitsOfReg rd) 0 0 0 pos =
      commandWord op 0 0 0 0 0 ||| placed rd 26 ||| pos.setWidth 32 := by
  have no_rs1 : placed 0 24 = 0#32 := by decide
  have no_rs2 : placed 0 22 = 0#32 := by decide
  have word := commandWord_eq_placed op rd 0 0 pos
  rwa [no_rs1, no_rs2, BitVec.or_zero, BitVec.or_zero] at word

/-- R72: the word of TEST, which has no destination. -/
theorem encode_test (rs1 : Reg) (pos : BitVec 16) :
    encode (.test rs1 pos) = 0x80000000#32 ||| placed rs1 24 ||| pos.setWidth 32 := by
  have opcode : commandWord 0x8 0 0 0 0 0 = 0x80000000#32 := by decide
  have no_rd : placed 0 26 = 0#32 := by decide
  have no_rs2 : placed 0 22 = 0#32 := by decide
  have word := commandWord_eq_placed 0x8 0 rs1 0 pos
  rwa [opcode, no_rd, no_rs2, BitVec.or_zero, BitVec.or_zero] at word

/-- R68: TEST uses `rs1` and `pos` alone. -/
theorem decode_test_opcode_of_other_field_ne_zero (c : Config) {w : BitVec 32} (hop : opField w = 0x8)
    (h : rdField w ≠ 0 ∨ rs2Field w ≠ 0 ∨ zeroField w ≠ 0) : ∃ why, decode c w = .illegal why := by
  refine decode_of_not_spellsCommand c fun hw => ?_
  obtain ⟨-, -, hzero, hrd, -, hrs2, -⟩ := hw
  have no_rd : opField w ∉ [0x1#4, 0x2#4, 0x3#4, 0x4#4, 0x5#4, 0x6#4, 0x9#4, 0xA#4] := by rw [hop]; decide
  have no_rs2 : opField w ∉ [0x5#4] := by rw [hop]; decide
  obtain hne | hne | hne := h
  · exact hne (hrd.resolve_right no_rd)
  · exact hne (hrs2.resolve_right no_rs2)
  · exact hne hzero

/-- R68: SET and UNSET use `rd` and `pos` alone. -/
theorem decode_set_unset_opcode_of_other_field_ne_zero (c : Config) {w : BitVec 32}
    (hop : opField w ∈ [0x9#4, 0xA#4]) (h : rs1Field w ≠ 0 ∨ rs2Field w ≠ 0 ∨ zeroField w ≠ 0) :
    ∃ why, decode c w = .illegal why := by
  have unused : ∀ op ∈ [0x9#4, 0xA#4], op ∉ [0x4#4, 0x5#4, 0x7#4, 0x8#4] ∧ op ∉ [0x5#4] := by decide
  obtain ⟨no_rs1, no_rs2⟩ := unused _ hop
  refine decode_of_not_spellsCommand c fun hw => ?_
  obtain ⟨-, -, hzero, -, hrs1, hrs2, -⟩ := hw
  obtain hne | hne | hne := h
  · exact hne (hrs1.resolve_right no_rs1)
  · exact hne (hrs2.resolve_right no_rs2)
  · exact hne hzero

end Sys2Proof

/-! ### The vectors of SET and UNSET, bit by bit and as numbers -/

namespace Sys2Proof.Machine

variable {c : Config}

/-- R152: the bit at a position as a digit of its word. -/
theorem toNat_bitAt (v : Vec c) (pos : Nat) :
    (bitAt v pos).toNat = (v[wordIndexFor c pos]'(wordIndexFor_lt c pos)).toNat / 2 ^ (pos % c.S) % 2 := by
  rw [← Nat.toNat_testBit, BitVec.testBit_toNat]
  rfl

/-- R12: a vector is determined by its stored bits. -/
theorem vec_eq_iff_bitAt {u v : Vec c} : u = v ↔ ∀ p, p < c.W * c.S → bitAt u p = bitAt v p := by
  refine ⟨fun h _ _ => h ▸ rfl, fun h => phys_inj.mp (Nat.eq_of_testBit_eq fun p => ?_)⟩
  rw [testBit_phys, testBit_phys]
  obtain hin | hout := Nat.lt_or_ge p (c.W * c.S)
  · rw [h p hin]
  · rw [decide_eq_false (Nat.not_lt.mpr hout), Bool.false_and, Bool.false_and]

/-- R150: the one-hot number is 1 at its position alone. -/
theorem testBit_two_pow_eq (pos p : Nat) : (2 ^ pos).testBit p = decide (p = pos) := by
  rw [Nat.testBit_two_pow]
  exact decide_eq_decide.mpr eq_comm

section

variable (v : Vec c) {pos : Nat} (hpos : pos < c.W * c.S)

include hpos

theorem bitAt_setBitVec_self : bitAt (setBitVec v pos) pos = true := by
  simp [bitAt_setBitVec v hpos hpos]

theorem bitAt_unsetBitVec_self : bitAt (unsetBitVec v pos) pos = false := by
  simp [bitAt_unsetBitVec v hpos hpos]

theorem bitAt_setBitVec_ne {p : Nat} (hp : p < c.W * c.S) (hne : p ≠ pos) :
    bitAt (setBitVec v pos) p = bitAt v p := by
  simp [bitAt_setBitVec v hpos hp, hne]

theorem bitAt_unsetBitVec_ne {p : Nat} (hp : p < c.W * c.S) (hne : p ≠ pos) :
    bitAt (unsetBitVec v pos) p = bitAt v p := by
  simp [bitAt_unsetBitVec v hpos hp, hne]

/-- R156: SET on the stored number. -/
theorem phys_setBitVec : phys (setBitVec v pos) = phys v ||| 2 ^ pos := by
  refine Nat.eq_of_testBit_eq fun p => ?_
  rw [Nat.testBit_or, testBit_phys, testBit_phys, testBit_two_pow_eq]
  obtain hin | hout := Nat.lt_or_ge p (c.W * c.S)
  · rw [bitAt_setBitVec v hpos hin, decide_eq_true hin, Bool.true_and, Bool.true_and, Bool.or_comm]
  · have : p ≠ pos := (hpos.trans_le hout).ne'
    simp [Nat.not_lt.mpr hout, this]

/-- R156: UNSET on the stored number. -/
theorem phys_unsetBitVec : phys (unsetBitVec v pos) = phys v &&& (2 ^ (c.W * c.S) - 1 - 2 ^ pos) := by
  have one_hot_lt : 2 ^ pos < 2 ^ (c.W * c.S) := Nat.pow_lt_pow_right Nat.one_lt_two hpos
  refine Nat.eq_of_testBit_eq fun p => ?_
  rw [Nat.testBit_and, testBit_phys, testBit_phys, Nat.sub_sub, Nat.add_comm 1,
    Nat.testBit_two_pow_sub_succ one_hot_lt, testBit_two_pow_eq]
  obtain hin | hout := Nat.lt_or_ge p (c.W * c.S)
  · rw [bitAt_unsetBitVec v hpos hin, decide_eq_true hin, Bool.true_and, Bool.true_and, Bool.true_and, Bool.and_comm]
  · simp only [decide_eq_false (Nat.not_lt.mpr hout), Bool.false_and]

/-- R157: SET changes nothing exactly when the bit is already 1. -/
theorem setBitVec_eq_self_iff : setBitVec v pos = v ↔ bitAt v pos = true := by
  refine ⟨fun h => ?_, fun h => vec_eq_iff_bitAt.mpr fun p hp => ?_⟩
  · rw [← h, bitAt_setBitVec_self v hpos]
  · obtain rfl | hne := eq_or_ne p pos
    · rw [bitAt_setBitVec_self v hpos, h]
    · exact bitAt_setBitVec_ne v hpos hp hne

/-- R157: UNSET changes nothing exactly when the bit is already 0. -/
theorem unsetBitVec_eq_self_iff : unsetBitVec v pos = v ↔ bitAt v pos = false := by
  refine ⟨fun h => ?_, fun h => vec_eq_iff_bitAt.mpr fun p hp => ?_⟩
  · rw [← h, bitAt_unsetBitVec_self v hpos]
  · obtain rfl | hne := eq_or_ne p pos
    · rw [bitAt_unsetBitVec_self v hpos, h]
    · exact bitAt_unsetBitVec_ne v hpos hp hne

/-- R158: UNSET leaves nothing of a SET at the same position. -/
theorem unsetBitVec_setBitVec : unsetBitVec (setBitVec v pos) pos = unsetBitVec v pos := by
  refine vec_eq_iff_bitAt.mpr fun p hp => ?_
  obtain rfl | hne := eq_or_ne p pos
  · rw [bitAt_unsetBitVec_self _ hpos, bitAt_unsetBitVec_self v hpos]
  · rw [bitAt_unsetBitVec_ne _ hpos hp hne, bitAt_setBitVec_ne v hpos hp hne, bitAt_unsetBitVec_ne v hpos hp hne]

end

/-! ### TEST, SET and UNSET in a running block -/

theorem Block.CompletesWith.faulted_eq {b b' : Block c} {d : BitVec 16} (h : b.CompletesWith b' d) :
    b'.faulted = b.faulted := by
  obtain ⟨-, hfstat, -⟩ := h
  rw [Block.faulted, Block.faulted, hfstat]

/-- A block in which no register reads differently holds the same registers. -/
theorem Block.regs_eq_of_readReg_eq {b b' : Block c} (h : ∀ r, b'.readReg r = b.readReg r) : b'.regs = b.regs :=
  Vector.ext fun r hr => h ⟨r, hr⟩

/-- Writing back what `rd` holds leaves every register as it was. -/
theorem Block.KeepsOthers.regs_eq {b b' : Block c} {rd : Reg} (h : b.KeepsOthers b' rd)
    (hrd : b'.readReg rd = b.readReg rd) : b'.regs = b.regs := by
  refine Block.regs_eq_of_readReg_eq fun r => ?_
  obtain rfl | hne := eq_or_ne r rd
  · exact hrd
  · exact h r hne

/-- A write to `rd` that keeps every bit of it but the one at `pos` keeps every other stored bit of the block. -/
theorem Block.KeepsOthers.bitAt_eq {b b' : Block c} {rd : Reg} (h : b.KeepsOthers b' rd) {p pos : Nat}
    (hrd : p ≠ pos → bitAt (b'.readReg rd) p = bitAt (b.readReg rd) p) {r : Reg}
    (hother : p ≠ pos ∨ some rd ≠ some r) : bitAt (b'.readReg r) p = bitAt (b.readReg r) p := by
  obtain rfl | hne := eq_or_ne r rd
  · exact hrd (hother.resolve_right (not_not.mpr rfl))
  · rw [h r hne]

/-- R151: TEST, SET or UNSET of a position at or above `N` raises POS_RANGE. -/
theorem exec_position_out_of_range {i : Instr} {pos : BitVec 16} (hi : positionOf i = some pos) {b : Block c}
    (hf : b.faulted = false) (hout : c.N ≤ pos.toNat) :
    ∃ b', exec i ⟨c, b⟩ = .next ⟨c, b'⟩ ∧ b.FaultEntry b' b.cmd 2 := by
  rw [exec_running i hf, effectOf_eq_fault_of_out_of_range hi hout]
  exact ⟨_, rfl, b.takeFault_faultEntry .posRange⟩

section

variable {b : Block c} (hf : b.faulted = false) {pos : BitVec 16} (hin : pos.toNat < c.N)

include hf hin

/-- R152: TEST answers the bit at the position and writes no register. -/
theorem exec_test (rs1 : Reg) :
    ∃ b', exec (.test rs1 pos) ⟨c, b⟩ = .next ⟨c, b'⟩ ∧ b'.regs = b.regs ∧
      b.CompletesWith b' (if bitAt (b.readReg rs1) pos.toNat then 1 else 0) :=
  ⟨_, exec_test_in_range hf rs1 hin, rfl, rfl, rfl, rfl, rfl, rfl, rfl⟩

/-- R153: SET of a position below `N`. -/
theorem exec_set (rd : Reg) :
    ∃ b', exec (.set rd pos) ⟨c, b⟩ = .next ⟨c, b'⟩ ∧
      b'.readReg rd = setBitVec (b.readReg rd) pos.toNat ∧ b.KeepsOthers b' rd ∧ b.CompletesWith b' 0 :=
  exec_write hf (if_pos hin)

/-- R154: UNSET of a position below `N`. -/
theorem exec_unset (rd : Reg) :
    ∃ b', exec (.unset rd pos) ⟨c, b⟩ = .next ⟨c, b'⟩ ∧
      b'.readReg rd = unsetBitVec (b.readReg rd) pos.toNat ∧ b.KeepsOthers b' rd ∧ b.CompletesWith b' 0 :=
  exec_write hf (if_pos hin)

end

end Sys2Proof.Machine

section

open Sys2Proof Sys2Proof.Machine

/-- Settles O48: the answer is the bit that the index translation selects, a binary digit of its word. -/
theorem testAnswersOneBit : Obligations.TestAnswersOneBit := by
  intro c b rs1 pos hf
  refine ⟨encode_test rs1 pos, fun hin => ?_, exec_position_out_of_range rfl hf,
    fun w ⟨hop, h⟩ => decode_test_opcode_of_other_field_ne_zero c hop h⟩
  obtain ⟨b', hexec, hregs, hcompletes⟩ := exec_test hf hin rs1
  refine ⟨b', _, hexec, hregs, hcompletes, ?_⟩
  rw [← toNat_bitAt]
  cases bitAt (b.readReg rs1) pos.toNat <;> rfl

/-- Settles O49: SET replaces the selected word alone, by its OR with the one-hot word. -/
theorem setWritesOneBitToOne : Obligations.SetWritesOneBitToOne := by
  intro c b rd pos hf
  refine ⟨commandWord_rd_pos 0x9 rd pos, fun hin => ?_, exec_position_out_of_range rfl hf,
    fun w ⟨hop, h⟩ => decode_set_unset_opcode_of_other_field_ne_zero c (by simp [hop]) h⟩
  obtain ⟨b', hexec, hrd, hothers, hcompletes⟩ := exec_set hf hin rd
  refine ⟨b', hexec, fun i => ?_, hothers, hcompletes⟩
  rw [hrd, Fin.getElem_fin, setBitVec_word]
  exact if_congr eq_comm rfl rfl

/-- Settles O50: UNSET replaces the selected word alone, by its AND with the complement of the one-hot word. -/
theorem unsetWritesOneBitToZero : Obligations.UnsetWritesOneBitToZero := by
  intro c b rd pos hf
  refine ⟨commandWord_rd_pos 0xA rd pos, fun hin => ?_, exec_position_out_of_range rfl hf,
    fun w ⟨hop, h⟩ => decode_set_unset_opcode_of_other_field_ne_zero c (by simp [hop]) h⟩
  obtain ⟨b', hexec, hrd, hothers, hcompletes⟩ := exec_unset hf hin rd
  refine ⟨b', hexec, fun i => ?_, hothers, hcompletes⟩
  rw [hrd, Fin.getElem_fin, unsetBitVec_word]
  exact if_congr eq_comm rfl rfl

/-- Settles O51: SET and UNSET change one stored bit, the one that TEST then reads, and PHYS is made of the stored
bits. -/
theorem setAndUnsetAgreeWithTest : Obligations.SetAndUnsetAgreeWithTest := by
  intro c b rd pos hf hin
  have stored := stored_of_lt_N hin
  constructor
  · obtain ⟨b', hset, hrd, -, hcompletes⟩ := exec_set hf hin rd
    obtain ⟨b'', htest, -, hanswer⟩ := exec_test (hcompletes.faulted_eq.trans hf) hin rd
    rw [hrd, bitAt_setBitVec_self _ stored] at hanswer
    exact ⟨b', b'', hset, htest, hanswer, by rw [hrd, phys_setBitVec _ stored],
      fun p hp hne => by rw [hrd, bitAt_setBitVec_ne _ stored hp hne]⟩
  · obtain ⟨b', hunset, hrd, -, hcompletes⟩ := exec_unset hf hin rd
    obtain ⟨b'', htest, -, hanswer⟩ := exec_test (hcompletes.faulted_eq.trans hf) hin rd
    rw [hrd, bitAt_unsetBitVec_self _ stored] at hanswer
    exact ⟨b', b'', hunset, htest, hanswer, by rw [hrd, phys_unsetBitVec _ stored],
      fun p hp hne => by rw [hrd, bitAt_unsetBitVec_ne _ stored hp hne]⟩

/-- Settles O52: the second command finds the bit as it would make it, so it writes back the vector it reads. -/
theorem setAndUnsetAreIdempotent : Obligations.SetAndUnsetAreIdempotent := by
  intro c b rd pos hf hin
  have stored := stored_of_lt_N hin
  constructor
  · obtain ⟨b₁, hfirst, hrd₁, -, hcompletes⟩ := exec_set hf hin rd
    obtain ⟨b₂, hsecond, hrd₂, hothers, -⟩ := exec_set (hcompletes.faulted_eq.trans hf) hin rd
    have already : bitAt (b₁.readReg rd) pos.toNat = true := by rw [hrd₁, bitAt_setBitVec_self _ stored]
    exact ⟨b₁, b₂, hfirst, hsecond, hothers.regs_eq (hrd₂.trans ((setBitVec_eq_self_iff _ stored).mpr already))⟩
  · obtain ⟨b₁, hfirst, hrd₁, -, hcompletes⟩ := exec_unset hf hin rd
    obtain ⟨b₂, hsecond, hrd₂, hothers, -⟩ := exec_unset (hcompletes.faulted_eq.trans hf) hin rd
    have already : bitAt (b₁.readReg rd) pos.toNat = false := by rw [hrd₁, bitAt_unsetBitVec_self _ stored]
    exact ⟨b₁, b₂, hfirst, hsecond, hothers.regs_eq (hrd₂.trans ((unsetBitVec_eq_self_iff _ stored).mpr already))⟩

/-- Settles O53: SET then UNSET leaves what UNSET alone would, which is the old vector exactly when the bit was 0. -/
theorem setThenUnsetClearsTheBit : Obligations.SetThenUnsetClearsTheBit := by
  intro c b rd pos hf hin
  have stored := stored_of_lt_N hin
  constructor
  · obtain ⟨b₁, hset, hrd₁, -, hcompletes⟩ := exec_set hf hin rd
    obtain ⟨b₂, hunset, hrd₂, -⟩ := exec_unset (hcompletes.faulted_eq.trans hf) hin rd
    rw [hrd₁, unsetBitVec_setBitVec _ stored] at hrd₂
    refine ⟨b₁, b₂, hset, hunset, ?_, fun p hp hne => ?_, ?_⟩
    · rw [hrd₂, bitAt_unsetBitVec_self _ stored]
    · rw [hrd₂, bitAt_unsetBitVec_ne _ stored hp hne]
    · rw [hrd₂, unsetBitVec_eq_self_iff _ stored]
  · obtain ⟨b₁, hunset, -, -, hcompletes⟩ := exec_unset hf hin rd
    obtain ⟨b₂, hset, hrd₂, -⟩ := exec_set (hcompletes.faulted_eq.trans hf) hin rd
    exact ⟨b₁, b₂, hunset, hset, by rw [hrd₂, bitAt_setBitVec_self _ stored]⟩

/-- Settles O55: TEST writes no register; SET and UNSET write `rd` alone, and of its stored bits the named one. -/
theorem bitCommandsNeverTouchPadding : Obligations.BitCommandsNeverTouchPadding := by
  intro i pos c b hi hf hin
  have stored := stored_of_lt_N hin
  cases i with
  | test rs1 =>
    cases hi
    obtain ⟨b', hexec, hregs, -⟩ := exec_test hf hin rs1
    exact ⟨b', hexec, fun r p _ _ => by rw [Block.readReg_of_regs_eq hregs]⟩
  | set rd =>
    cases hi
    obtain ⟨b', hexec, hrd, hothers, -⟩ := exec_set hf hin rd
    exact ⟨b', hexec, fun r p hp => hothers.bitAt_eq fun hne => by rw [hrd, bitAt_setBitVec_ne _ stored hp hne]⟩
  | unset rd =>
    cases hi
    obtain ⟨b', hexec, hrd, hothers, -⟩ := exec_unset hf hin rd
    exact ⟨b', hexec, fun r p hp => hothers.bitAt_eq fun hne => by rw [hrd, bitAt_unsetBitVec_ne _ stored hp hne]⟩
  | clr | ldi | ldv | shl | and | dec | popc => cases hi

end

/-! ## 60_exceptions.md: the two faults, their entry and their order, and the faulted state -/

/-! ### The word that raises a fault -/

namespace Sys2Proof

open Machine (positionOf)

/-- R173: the position that a command names stands in bits 15:0 of its word. -/
theorem posField_encode {i : Instr} {pos : BitVec 16} (h : positionOf i = some pos) : posField (encode i) = pos := by
  cases i with
  | test | set | unset =>
    cases h
    exact posField_commandWord ..
  | clr | ldi | ldv | shl | and | dec | popc => cases h

/-- R68: a word with a 1 in its zero field is illegal, whatever its other fields. -/
theorem decode_of_zeroField_ne_zero (c : Config) {w : BitVec 32} (h : zeroField w ≠ 0) :
    ∃ why, decode c w = .illegal why :=
  decode_of_not_spellsCommand c fun ⟨_, _, hzero, _⟩ => h hzero

end Sys2Proof

namespace Sys2Proof.Machine

variable {c : Config}

/-- R172, R173: the effect of a word is a fault exactly when the word raises it. -/
theorem decodedEffect_eq_fault_iff {w : BitVec 32} {b : Block c} {k : Cause} :
    decodedEffect (decode c w) b = .fault k ↔ FaultReason c w k := by
  refine ⟨faultReason_of_decodedEffect_eq_fault, fun h => ?_⟩
  cases k with
  | illegalCmd =>
    obtain ⟨why, hd⟩ := h
    rw [hd, decodedEffect]
  | posRange =>
    obtain ⟨i, pos, hd, hpos, hout⟩ := h
    rw [hd]
    exact effectOf_eq_fault_of_out_of_range hpos hout b

/-- R171: the codes tell the causes apart. -/
theorem causeCode_injective : Function.Injective causeCode
  | .illegalCmd, .illegalCmd, _ => rfl
  | .posRange, .posRange, _ => rfl

/-! ### Fault entry -/

section

variable {b b' : Block c} {w : BitVec 32} {d : BitVec (c.W * c.S)}
  (hf : b.faulted = false) (hstep : step ⟨c, b.issue w d⟩ = .next ⟨c, b'⟩)

include hf hstep

/-- R174: a word that raises a fault in a running block enters it. -/
theorem faultEntry_of_faultReason {k : Cause} (h : FaultReason c w k) :
    b.FaultEntry b' w (causeCode k) ∧ b'.fstat = packFstat true (causeCode k) := by
  have entry := step_command_running (b.issue_queue w d) hf
  rw [b.accept_issue, decodedEffect_eq_fault_iff.mpr h] at entry
  cases next_block_inj (entry.symm.trans hstep)
  exact ⟨(b.accept w d b.queue).takeFault_faultEntry k, rfl⟩

/-- R174: a running block becomes faulted only by a word that raises a fault, whose cause and word it then shows. -/
theorem faultReason_of_faulted (h : b'.faulted = true) :
    ∃ k, FaultReason c w k ∧ b'.cause = causeCode k ∧ b'.fcmd = w := by
  obtain ⟨hstat, -⟩ | ⟨q, hq, -⟩ | ⟨w', d', q, k, hq, -, hreason, -, hcause, hfcmd⟩ := step_status_cases hstep
  · have kept : b'.faulted = false := by rw [Block.faulted, hstat]; exact hf
    cases kept.symm.trans h
  · cases hq
  · cases hq
    exact ⟨k, hreason, hcause, hfcmd⟩

/-- R172, R173: the step of a running block latches a cause exactly when its word raises that fault. -/
theorem faulted_with_cause_iff (k : Cause) :
    (b'.faulted = true ∧ b'.cause = causeCode k) ↔ FaultReason c w k := by
  constructor
  · rintro ⟨hfaulted, hcause⟩
    obtain ⟨k', hreason, hcause', -⟩ := faultReason_of_faulted hf hstep hfaulted
    cases causeCode_injective (hcause.symm.trans hcause')
    exact hreason
  · intro h
    obtain ⟨⟨-, hfaulted, hcause, -⟩, -⟩ := faultEntry_of_faultReason hf hstep h
    exact ⟨hfaulted, hcause⟩

end

/-! ### The faulted state -/

/-- `b'` has taken the first `k` inputs of `b` and, as R175 and R176 say of a faulted block, changed nothing and
answered each of them with the cause that `b` latched. -/
def Block.TurnsAway (b : Block c) (k : Nat) (b' : Block c) : Prop :=
  b'.regs = b.regs ∧ b'.fstat = b.fstat ∧ b'.fcmd = b.fcmd ∧ b'.queue = b.queue.drop k ∧
    b'.rsps = b.rsps ++ List.replicate (min k b.queue.length) { fault := true, cause := b.cause, data := 0 }

theorem Block.TurnsAway.refl (b : Block c) : b.TurnsAway 0 b := ⟨rfl, rfl, rfl, rfl, by simp⟩

/-- The next `m` inputs are answered with the same cause, which the first `k` left in FSTAT. -/
theorem Block.TurnsAway.trans {b b₁ b₂ : Block c} {k m : Nat} (h₁ : b.TurnsAway k b₁) (h₂ : b₁.TurnsAway m b₂) :
    b.TurnsAway (k + m) b₂ := by
  obtain ⟨hregs₁, hstat₁, hfcmd₁, hqueue₁, hrsps₁⟩ := h₁
  obtain ⟨hregs₂, hstat₂, hfcmd₂, hqueue₂, hrsps₂⟩ := h₂
  have same_cause : b₁.cause = b.cause := by rw [cause, cause, hstat₁]
  have taken : min k b.queue.length + min m (b.queue.length - k) = min (k + m) b.queue.length := by omega
  refine ⟨hregs₂.trans hregs₁, hstat₂.trans hstat₁, hfcmd₂.trans hfcmd₁, by rw [hqueue₂, hqueue₁, List.drop_drop], ?_⟩
  rw [hrsps₂, hrsps₁, same_cause, hqueue₁, List.length_drop, List.append_assoc, List.replicate_append_replicate, taken]

/-- R175, R176: without `rst` a step of a faulted block turns the next command away. -/
theorem step_turnsAway {b : Block c} (hf : b.faulted = true) (hrst : HostInput.rst ∉ b.queue) :
    ∃ b', step ⟨c, b⟩ = .next ⟨c, b'⟩ ∧ b.TurnsAway 1 b' := by
  obtain ⟨hq, -⟩ | ⟨q, hq, -⟩ | ⟨w, d, q, hq, -⟩ := b.nextInput_cases
  · exact ⟨b, step_idle hq, rfl, rfl, rfl, by simp [hq], by simp [hq]⟩
  · exact absurd (hq ▸ List.mem_cons_self) hrst
  · exact ⟨_, step_command_faulted hq hf, rfl, rfl, rfl, by simp [hq], by simp [hq]⟩

/-- R175: without `rst` a faulted block turns away every command of a run. -/
theorem runSteps_turnsAway (k : Nat) {b : Block c} (hf : b.faulted = true) (hrst : HostInput.rst ∉ b.queue) :
    ∃ b', runSteps k ⟨c, b⟩ = .next ⟨c, b'⟩ ∧ b.TurnsAway k b' := by
  induction k generalizing b with
  | zero => exact ⟨b, rfl, .refl b⟩
  | succ k ih =>
    obtain ⟨b₁, hstep, h₁⟩ := step_turnsAway hf hrst
    have ⟨_, hstat, _, hqueue, _⟩ := h₁
    have still_faulted : b₁.faulted = true := by rw [Block.faulted, hstat]; exact hf
    have still_no_rst : HostInput.rst ∉ b₁.queue := fun h => hrst (List.mem_of_mem_drop (hqueue ▸ h))
    obtain ⟨b', hrun, h'⟩ := ih still_faulted still_no_rst
    exact ⟨b', (runSteps_succ k hstep).trans hrun, Nat.add_comm 1 k ▸ h₁.trans h'⟩

end Sys2Proof.Machine

section

open Sys2Proof Sys2Proof.Machine

/-- Settles O16: a word that raises a fault enters it, and no other word makes a running block faulted. -/
theorem faultEntryIsPrecise : Obligations.FaultEntryIsPrecise := by
  intro c b b' w d hf hstep
  refine ⟨faultEntry_of_faultReason hf hstep (k := .illegalCmd), faultEntry_of_faultReason hf hstep (k := .posRange),
    fun hfaulted => ?_⟩
  obtain ⟨k, hreason, -⟩ := faultReason_of_faulted hf hstep hfaulted
  cases k with
  | illegalCmd => exact .inl hreason
  | posRange => exact .inr hreason

/-- Settles O17: a cause is latched exactly when the word raises its fault, and the word of a command that names a
position holds it in bits 15:0. -/
theorem faultCausesAreExact : Obligations.FaultCausesAreExact := by
  intro c b b' w d hf hstep
  refine ⟨faulted_with_cause_iff hf hstep .illegalCmd, faulted_with_cause_iff hf hstep .posRange, fun hfaulted => ?_,
    fun i pos hd hpos => ?_⟩
  · obtain ⟨k, -, -, hfcmd⟩ := faultReason_of_faulted hf hstep hfaulted
    exact hfcmd
  · obtain ⟨rfl, -⟩ := decode_eq_instr_iff.mp hd
    exact posField_encode hpos

/-- Settles O19: by induction on the number of steps, each of which turns one command away and leaves the block faulted
with the same cause. -/
theorem faultedStateLastsUntilReset : Obligations.FaultedStateLastsUntilReset := by
  intro c b k hf hrst
  obtain ⟨b', hrun, hregs, hstat, hfcmd, -, hrsps⟩ := runSteps_turnsAway k hf hrst
  exact ⟨b', hrun, hregs, hstat, hfcmd, hrsps⟩

/-- Settles O24: a step that takes an input, or none, answers a next state. -/
theorem everyStepAnswersANextState : Obligations.EveryStepAnswersANextState := by
  intro s
  obtain ⟨b', hstep, -⟩ := step_serves s.block
  exact ⟨b', hstep⟩

/-- Settles O18: the check of the faulted state comes before what the word decodes to. -/
theorem faultedBlockAnswersTheCause : Obligations.FaultedBlockAnswersTheCause :=
  fun _ b w d hf =>
    ⟨_, step_command_faulted (b.issue_queue w d) hf, (b.accept w d b.queue).answerFaulted_turnedAway⟩

/-- Settles O15: a faulted block turns the command away; in a running one the step enters the fault that the word
raises, and a word with a 1 in its zero field raises ILLEGAL_CMD. -/
theorem illegalCommandBeforePosition : Obligations.IllegalCommandBeforePosition := by
  intro c b w d
  obtain ⟨b', hstep⟩ := everyStepAnswersANextState ⟨c, b.issue w d⟩
  have entry (hf : b.faulted = false) {k : Cause} (h : FaultReason c w k) : b.FaultEntry b' w (causeCode k) :=
    (faultEntry_of_faultReason hf hstep h).1
  refine ⟨b', hstep, fun hf => ?_, fun hf hillegal => entry hf (k := .illegalCmd) hillegal,
    fun hf i hd => ⟨fun pos hpos hout => entry hf (k := .posRange) ⟨i, pos, hd, hpos, hout⟩, fun hin => ?_⟩,
    fun hf _ hzero _ => entry hf (k := .illegalCmd) (decode_of_zeroField_ne_zero c hzero)⟩
  · obtain ⟨b'', hturned, h⟩ := faultedBlockAnswersTheCause c b w d hf
    cases next_block_inj (hturned.symm.trans hstep)
    exact h
  · refine Bool.eq_false_of_not_eq_true fun hfaulted => ?_
    obtain ⟨k, hreason, -⟩ := faultReason_of_faulted hf hstep hfaulted
    have faults := decodedEffect_eq_fault_iff (b := b).mpr hreason
    rw [hd] at faults
    exact effectOf_ne_fault hd hin b k faults

end

/-! ## 70_reset_and_hazards.md: the bounds of a configuration, and the block after reset -/

namespace Sys2Proof

/-- R203: the pair of a configuration is never refused, and makes that configuration. -/
theorem Config.build_self (c : Config) : Config.build c.N c.S = some c :=
  dif_pos ⟨c.N_pos, c.N_le, c.S_pos⟩

theorem Config.build_eq_some_iff {N S : Nat} {c : Config} : Config.build N S = some c ↔ c.N = N ∧ c.S = S := by
  constructor
  · intro h
    unfold Config.build at h
    split at h
    · cases h
      exact ⟨rfl, rfl⟩
    · cases h
  · rintro ⟨rfl, rfl⟩
    exact c.build_self

/-- R5, R6: the bounds are all that a configuration asks of its pair. -/
theorem Config.exists_iff_bounds {N S : Nat} : (∃ c : Config, c.N = N ∧ c.S = S) ↔ 1 ≤ N ∧ N ≤ 65535 ∧ 1 ≤ S := by
  constructor
  · rintro ⟨c, rfl, rfl⟩
    exact ⟨c.N_pos, c.N_le, c.S_pos⟩
  · rintro ⟨hpos, hle, hword⟩
    exact ⟨⟨N, S, hpos, hle, hword⟩, rfl, rfl⟩

theorem Config.build_isSome_iff {N S : Nat} : (Config.build N S).isSome = true ↔ 1 ≤ N ∧ N ≤ 65535 ∧ 1 ≤ S := by
  simp only [Option.isSome_iff_exists, Config.build_eq_some_iff, Config.exists_iff_bounds]

end Sys2Proof

namespace Sys2Proof.Machine

variable {c : Config}

@[simp] theorem bitAt_zeroVec (c : Config) (pos : Nat) : bitAt (zeroVec c) pos = false := by
  simp [bitAt, selectWord]

@[simp] theorem logicalCount_zeroVec (c : Config) : logicalCount (zeroVec c) = 0 := by
  simp [logicalCount_eq_countP_bitAt]

/-- R140, R201: POPC of a register of zero words answers 0. -/
theorem exec_popc_zeroVec {b : Block c} (hf : b.faulted = false) {r : Reg} (hr : b.readReg r = zeroVec c) :
    ∃ b', exec (.popc r) ⟨c, b⟩ = .next ⟨c, b'⟩ ∧ b.CompletesWith b' 0 := by
  obtain ⟨b', hexec, -, hcompletes⟩ := exec_popc hf r
  rw [hr, logicalCount_zeroVec] at hcompletes
  exact ⟨b', hexec, hcompletes⟩

/-- R152, R201: TEST of a register of zero words answers 0 at every position below `N`. -/
theorem exec_test_zeroVec {b : Block c} (hf : b.faulted = false) {r : Reg} (hr : b.readReg r = zeroVec c)
    {pos : BitVec 16} (hin : pos.toNat < c.N) :
    ∃ b', exec (.test r pos) ⟨c, b⟩ = .next ⟨c, b'⟩ ∧ b.CompletesWith b' 0 := by
  obtain ⟨b', hexec, -, hcompletes⟩ := exec_test hf hin r
  rw [hr, bitAt_zeroVec] at hcompletes
  exact ⟨b', hexec, hcompletes⟩

end Sys2Proof.Machine

section

open Sys2Proof Sys2Proof.Machine

/-- Settles O22: reset leaves every register the zero vector, of which no bit is 1, in a block that is not faulted. -/
theorem afterResetEveryReadAnswersZero : Obligations.AfterResetEveryReadAnswersZero :=
  fun _ r =>
    ⟨exec_popc_zeroVec Block.faulted_reset (Block.readReg_reset r),
      fun _ hin => exec_test_zeroVec Block.faulted_reset (Block.readReg_reset r) hin⟩

/-- Settles O2: a pair is built exactly when some configuration has it, and a configuration has it exactly within the
bounds. -/
theorem parametersOutsideTheBoundsAreRefused : Obligations.ParametersOutsideTheBoundsAreRefused :=
  fun _ _ => ⟨Config.build_isSome_iff, fun _ => Config.build_eq_some_iff.mp⟩

/-- Settles O21: the step that takes `rst` resets the block, whatever its FSTAT, and takes that input alone off the
queue. -/
theorem resetInputRestoresTheResetValues : Obligations.ResetInputRestoresTheResetValues := by
  intro c b rest hq
  have zeroed (r : Reg) (i : Fin c.W) : (b.applyReset.readReg r)[i] = 0 := by simp [Block.readReg_applyReset]
  exact ⟨_, step_rst hq, zeroed, rfl, rfl, b.faulted_applyReset, rfl, rfl⟩

end
